-- ==== Sys2Proof/Word.lean ====
section
/-! DEFINITION. The word of the machine: one unsigned byte (spec/00_scope.md R6). -/

namespace Sys2Proof

/-- A memory cell, a register, an opcode or an operand: an unsigned 8-bit value (R6). Addresses and the
program counter are plain natural numbers (R9, R24), reached from a byte with `toNat`. -/
abbrev Byte := BitVec 8

end Sys2Proof
end

