-- ==== Sys2Proof/Config.lean ====
section
/-! DEFINITION. The fixed numbers of the machine and its open parameter MEM_FILL (spec/00_scope.md R5). The
other open parameter, OPC, is an argument of the decoder, the encoder and `stepWith`; its default stands in
Sys2Proof/Decode.lean. -/

namespace Sys2Proof.Config

/-- `MEM_SIZE`: addresses are 0 to 255 (R5, R32). -/
def memSize : Nat := 256

/-- `SP_RESET`: the reset value of register 7 (R5, R23). -/
def spReset : Byte := 0xF4#8

/-- `PC_RESET`: execution starts at address 0 (R5, R181). -/
def pcReset : Nat := 0

/-- `MEM_FILL`: what a cell that nothing has written reads as (R33). DESIGN CHOICE (log 2): the source gives no
value, the spec's default is 0; UNSAFE, since a proof can lean on the 0. -/
def memFill : Byte := 0#8

end Sys2Proof.Config
end

