-- ==== Sys2Proof/Syntax.lean ====
section
/-! DEFINITION. The 13 mnemonics and the instructions: one constructor per row of spec/opcode_table.json
(spec/30_encoding.md R60, R61, R74; spec/40_engine_cycle.md R83). -/

namespace Sys2Proof

/-- The 13 entries of the dispatch table (R67), in the source's order (R74). -/
inductive Mnemonic
  | ldi | prn | hlt | add | mul | cmp | push | pop | call | ret | jmp | jeq | jne
  deriving DecidableEq, Repr

/-- A decoded instruction with its operand bytes, `operand_a` first (R61). A register operand is kept as the whole
byte: a value above 7 decodes, and faults where the instruction uses it (R64, R65). -/
inductive Instr
  /-- LDI: format RI, destination index and immediate (R100). -/
  | ldi (a imm : Byte)
  /-- PRN: format R, source index (R101). -/
  | prn (a : Byte)
  /-- HLT: format Z (R102). -/
  | hlt
  /-- ADD: format RR, destination and first source index, second source index (R114). -/
  | add (a b : Byte)
  /-- MUL: format RR, destination and first source index, second source index (R115). -/
  | mul (a b : Byte)
  /-- CMP: format RR, left index, right index (R116). -/
  | cmp (a b : Byte)
  /-- PUSH: format R, source index (R123). -/
  | push (a : Byte)
  /-- POP: format R, destination index (R124). -/
  | pop (a : Byte)
  /-- CALL: format R; the byte names the register with the target, and the handler reads it again (R130). -/
  | call (a : Byte)
  /-- RET: format Z (R131). -/
  | ret
  /-- JMP: format R, index of the register with the target (R141). -/
  | jmp (a : Byte)
  /-- JEQ: format R, index of the register with the target, used only when taken (R142). -/
  | jeq (a : Byte)
  /-- JNE: format R, index of the register with the target, used only when taken (R143). -/
  | jne (a : Byte)
  deriving DecidableEq, Repr

end Sys2Proof
end

