-- ==== Sys2Proof/WellFormed.lean ====
section
/-! DEFINITION. Which instructions are well formed: every register operand names one of the 8 registers. Operand
bytes have no other illegal value (spec/30_encoding.md R64, R70). The machine does not consult this check: an
ill-formed instruction decodes and runs, and faults where it uses the operand (R65; log 19). -/

namespace Sys2Proof

/-- An operand byte that names a register: 0 to 7, never masked (R64). -/
def isRegByte (b : Byte) : Bool := decide (b.toNat < 8)

/-- Every register operand is in range; LDI's immediate may be any byte (R66, R70). -/
def Instr.wf : Instr → Bool
  | .ldi a _ => isRegByte a
  | .prn a => isRegByte a
  | .hlt => true
  | .add a b => isRegByte a && isRegByte b
  | .mul a b => isRegByte a && isRegByte b
  | .cmp a b => isRegByte a && isRegByte b
  | .push a => isRegByte a
  | .pop a => isRegByte a
  | .call a => isRegByte a
  | .ret => true
  | .jmp a => isRegByte a
  | .jeq a => isRegByte a
  | .jne a => isRegByte a

end Sys2Proof
end

