-- ==== Sys2Proof/Decode.lean ====
section
/-! DEFINITION. Decoding and encoding (spec/30_encoding.md). Both take the opcode map OPC as an argument: the spec
leaves it open (R68, decision D1) and every rule holds for every injective map. `defaultOpc` is the map the
opcode table uses, and the one `step` runs with (log 1). -/

namespace Sys2Proof

/-- The parameter `OPC`: a byte for each mnemonic (R67, R68). -/
abbrev OpcodeMap := Mnemonic → Byte

/-- The default assignment of R68. PRESUMED (log 1): the source prints no opcode byte; UNSAFE for claims about
bytes. -/
def defaultOpc : OpcodeMap
  | .ldi => 0b10000010#8
  | .prn => 0b01000111#8
  | .hlt => 0b00000001#8
  | .add => 0b10100000#8
  | .mul => 0b10100010#8
  | .cmp => 0b10100111#8
  | .push => 0b01000101#8
  | .pop => 0b01000110#8
  | .call => 0b01010000#8
  | .ret => 0b00010001#8
  | .jmp => 0b01010100#8
  | .jeq => 0b01010101#8
  | .jne => 0b01010110#8

/-- The dispatch table's entries, in the source's order, which has no meaning for decoding (R74). -/
def mnemonics : List Mnemonic :=
  [.ldi, .prn, .hlt, .add, .mul, .cmp, .push, .pop, .call, .ret, .jmp, .jeq, .jne]

/-- `Decode(b)`: the mnemonic whose opcode is exactly this byte, if there is one (R67). -/
def lookupOpcode (opc : OpcodeMap) (op : Byte) : Option Mnemonic :=
  mnemonics.find? fun m => opc m == op

/-- The instruction of a mnemonic with the fetched operand bytes; a byte its format does not have is ignored
(R61, R62). -/
def buildInstr (m : Mnemonic) (a b : Byte) : Instr :=
  match m with
  | .ldi => .ldi a b
  | .prn => .prn a
  | .hlt => .hlt
  | .add => .add a b
  | .mul => .mul a b
  | .cmp => .cmp a b
  | .push => .push a
  | .pop => .pop a
  | .call => .call a
  | .ret => .ret
  | .jmp => .jmp a
  | .jeq => .jeq a
  | .jne => .jne a

/-- Why bytes do not decode. -/
inductive DecodeError
  /-- The opcode byte is none of the 13 values of OPC (R69). -/
  | invalidInstruction (op : Byte)
  deriving DecidableEq, Repr

/-- Decode three fetched bytes. The opcode byte alone selects the instruction (R67, R82). -/
def decodeWith (opc : OpcodeMap) (op a b : Byte) : Except DecodeError Instr :=
  match lookupOpcode opc op with
  | some m => .ok (buildInstr m a b)
  | none => .error (.invalidInstruction op)

/-- The decoder under the default OPC. -/
def decode (op a b : Byte) : Except DecodeError Instr := decodeWith defaultOpc op a b

/-- The mnemonic of an instruction. -/
def mnemonicOf : Instr → Mnemonic
  | .ldi _ _ => .ldi
  | .prn _ => .prn
  | .hlt => .hlt
  | .add _ _ => .add
  | .mul _ _ => .mul
  | .cmp _ _ => .cmp
  | .push _ => .push
  | .pop _ => .pop
  | .call _ => .call
  | .ret => .ret
  | .jmp _ => .jmp
  | .jeq _ => .jeq
  | .jne _ => .jne

/-- The operand bytes in memory order (R61). -/
def operandBytes : Instr → List Byte
  | .ldi a imm => [a, imm]
  | .prn a => [a]
  | .hlt => []
  | .add a b => [a, b]
  | .mul a b => [a, b]
  | .cmp a b => [a, b]
  | .push a => [a]
  | .pop a => [a]
  | .call a => [a]
  | .ret => []
  | .jmp a => [a]
  | .jeq a => [a]
  | .jne a => [a]

/-- The length of an instruction, from its mnemonic alone (R63). -/
def instrLength : Mnemonic → Nat
  | .ldi => 3
  | .prn => 2
  | .hlt => 1
  | .add => 3
  | .mul => 3
  | .cmp => 3
  | .push => 2
  | .pop => 2
  | .call => 2
  | .ret => 1
  | .jmp => 2
  | .jeq => 2
  | .jne => 2

/-- The bytes of an instruction at ascending addresses: the opcode, then the operands (R42, R60, R61). -/
def encodeWith (opc : OpcodeMap) (i : Instr) : List Byte :=
  opc (mnemonicOf i) :: operandBytes i

/-- The encoder under the default OPC. -/
def encode (i : Instr) : List Byte := encodeWith defaultOpc i

/-- Byte `k` of an instruction given as one number: the first byte is the least significant, and every bit from
`nbits` up is 0. -/
def wordByte (nbits w k : Nat) : Byte :=
  BitVec.ofNat 8 (w % 2 ^ nbits / 256 ^ k)

/-- What the decoder reads from an instruction whose bits, numbered as spec/opcode_table.json numbers them, are `w`. -/
def decodeTableWord (nbits w : Nat) : Option Instr :=
  match decode (wordByte nbits w 0) (wordByte nbits w 1) (wordByte nbits w 2) with
  | .ok i => some i
  | .error _ => none

end Sys2Proof
end

