-- ==== Sys2Proof/Machine/State.lean ====
section
/-! DEFINITION. The state of the machine, `(x[0..7], pc, FL.E, FL.G, FL.L, run, M[0..255], OUT)`, and its reset value
(spec/10_state.md). Plain data throughout. -/

namespace Sys2Proof.Machine

/-- The register file: 8 registers of one byte, none hard-wired (R20). `r7` is the stack pointer (R21). -/
structure RegFile where
  r0 : Byte
  r1 : Byte
  r2 : Byte
  r3 : Byte
  r4 : Byte
  r5 : Byte
  r6 : Byte
  r7 : Byte
  deriving DecidableEq, Repr

/-- The three condition flags, with no bit positions (R27, R28). -/
structure Flags where
  /-- `FL.E`, Equal: the only flag an instruction reads (R28). -/
  eq : Bool
  /-- `FL.G`, Greater-Than: written by CMP, read by nothing (R28). -/
  gt : Bool
  /-- `FL.L`, Less-Than: written by CMP, read by nothing (R28). -/
  lt : Bool
  deriving DecidableEq, Repr

/-- The direction of a stack-pointer step (R150, F4). -/
inductive Direction
  | down
  | up
  deriving DecidableEq, Repr

/-- The machine's own fatal faults, as `Faulted(c)` records them (R11, R150). Entering one is a step of the machine
(R158), not a stop of the model. -/
inductive FaultCause
  /-- F1: a memory access at an address above 255; recorded is the first such address (R81, R151). Raised by the
  fetch. SAFE (log 8): an implementation that skipped unused operand reads would go on. -/
  | addressRange (addr : Nat)
  /-- F2: the opcode byte is in no table entry; recorded are the byte and its address (R82, R154). Raised by decode.
  SAFE: the source fixes it. -/
  | invalidInstruction (op : Byte) (pc : Nat)
  /-- F3: a byte used as a register index exceeds 7 (R10, R152). Raised by every use of a register operand. SAFE
  (log 6). -/
  | registerIndex (b : Byte)
  /-- F4: an implicit stack-pointer step past 0 or 255; recorded are the value of x[7] and the direction (R153).
  Raised by PUSH and CALL (down), POP and RET (up). SAFE (log 7). -/
  | stackPointerRange (sp : Byte) (dir : Direction)
  /-- F5: the ALU was given a selector other than ADD, MUL, CMP. Nothing raises it (R117, R155). SAFE (log 11). -/
  | aluSelector
  deriving DecidableEq, Repr

/-- The run state (R30). -/
inductive RunState
  | running
  | halted
  | faulted (c : FaultCause)
  deriving DecidableEq, Repr

/-- Memory as a list of (address, byte) pairs; an address not listed reads as `Memory.unlisted`. -/
abbrev Memory := List Host.Cell

/-- What an unlisted address reads as: `MEM_FILL` (R33). DESIGN CHOICE (log 2), UNSAFE. -/
def Memory.unlisted : Byte := Config.memFill

/-- The canonical form from an address on: addresses strictly rising, below 256, no entry equal to the unlisted value. -/
def Memory.wfFrom : Nat → Memory → Bool
  | _, [] => true
  | lo, (a, v) :: m =>
    decide (lo ≤ a) && decide (a < Config.memSize) && decide (v ≠ Memory.unlisted) && Memory.wfFrom (a + 1) m

/-- The canonical form of memory: equal memories are equal lists. -/
def Memory.wf (m : Memory) : Bool := Memory.wfFrom 0 m

/-- The state of the machine (10_state.md, head). -/
structure State where
  /-- `x[0]` to `x[7]` (R20). -/
  regs : RegFile
  /-- The program counter, a natural number that never wraps (R24, R26; log 4). -/
  pc : Nat
  /-- `FL.E`, `FL.G`, `FL.L` (R27). -/
  flags : Flags
  /-- `Running`, `Halted` or `Faulted(c)` (R30). -/
  run : RunState
  /-- `M[0]` to `M[255]` (R32). -/
  mem : Memory
  /-- `OUT`, the bytes PRN has emitted, oldest first (R34). -/
  out : List Byte
  deriving DecidableEq, Repr

/-- The model's stops: the machine has no step (R89). An attempt to step a stopped machine answers one of these; the
machine's own fatal faults are `FaultCause`s inside the state. -/
inductive Fault
  /-- `run` is `Halted`: raised by `step` only. SAFE: the spec says there is no step (R89). -/
  | halted
  /-- `run` is `Faulted(c)`: raised by `step` only. SAFE: the spec says there is no step (R89). -/
  | faulted (c : FaultCause)
  deriving DecidableEq, Repr

/-- The model's refusals. -/
inductive Refusal
  /-- An instruction without a meaning yet, raised by an arm of `exec`; no arm does. SAFE. -/
  | notModelled (mnemonic : String)
  deriving DecidableEq, Repr

/-- What a step or a meaning answers. -/
abbrev Result := Host.Outcome State Fault Refusal

/-- The machine right after reset (R37), with no program image: registers 0 to 6 are 0 and register 7 is 0xF4 (R23),
pc is 0, the flags are all false (R29; log 3), run is Running (R30), every memory cell is MEM_FILL (R33; log 2) and OUT
is empty (R34). -/
def State.reset : State where
  regs := ⟨0, 0, 0, 0, 0, 0, 0, Config.spReset⟩
  pc := Config.pcReset
  flags := ⟨false, false, false⟩
  run := .running
  mem := []
  out := []

end Sys2Proof.Machine
end

