-- ==== Sys2Proof/Machine/Ops.lean ====
section
/-! DEFINITION. The named operations over registers, memory and the rest of the state: the spec's primitives
`MemRead`, `MemWrite`, `raise`, `Emit` (spec/00_scope.md R9, R11, R13), the stack-pointer steps (spec/43_stack.md
R120, R121), the fetch (spec/40_engine_cycle.md R80 to R82), fault entry (spec/60_exceptions.md R158) and reset
(spec/70_reset_and_hazards.md R180). There is no return from a fault (R159): only reset leaves `Faulted(c)`. -/

namespace Sys2Proof.Machine

/-! ### Registers -/

/-- `x[i]` (R20). -/
def RegFile.get (r : RegFile) (i : Fin 8) : Byte :=
  match i with
  | 0 => r.r0
  | 1 => r.r1
  | 2 => r.r2
  | 3 => r.r3
  | 4 => r.r4
  | 5 => r.r5
  | 6 => r.r6
  | 7 => r.r7

/-- The register file after `x[i] <- v` (R8, R20). -/
def RegFile.set (r : RegFile) (i : Fin 8) (v : Byte) : RegFile :=
  match i with
  | 0 => { r with r0 := v }
  | 1 => { r with r1 := v }
  | 2 => { r with r2 := v }
  | 3 => { r with r3 := v }
  | 4 => { r with r4 := v }
  | 5 => { r with r5 := v }
  | 6 => { r with r6 := v }
  | 7 => { r with r7 := v }

/-- `x[i]` of a state. -/
def State.reg (s : State) (i : Fin 8) : Byte := s.regs.get i

/-- `x[i] <- v` (R8). -/
def State.setReg (s : State) (i : Fin 8) (v : Byte) : State := { s with regs := s.regs.set i v }

/-- `SP_INDEX`: the register the stack instructions use (R5, R21). -/
abbrev spIndex : Fin 8 := 7

/-- `SP`, another name of `x[7]` (R7, R21). -/
def State.sp (s : State) : Byte := s.reg spIndex

/-! ### Program counter, flags, run state, output -/

/-- `pc <- t` (R8). -/
def State.setPc (s : State) (t : Nat) : State := { s with pc := t }

/-- The sequential advance: an exact sum, never reduced (R26, R88). -/
def State.advance (s : State) (n : Nat) : State := s.setPc (s.pc + n)

/-- `FL <- (e, g, l)` (R8). -/
def State.setFlags (s : State) (f : Flags) : State := { s with flags := f }

/-- `run <- r`. -/
def State.setRun (s : State) (r : RunState) : State := { s with run := r }

/-- `Emit(v)`: append to OUT; it cannot block or fail (R13, R101). -/
def State.emit (s : State) (v : Byte) : State := { s with out := s.out ++ [v] }

/-! ### Memory -/

/-- The byte at an address, whatever the address; the range check is `memRead`'s. -/
def Memory.read : Memory → Nat → Byte
  | [], _ => Memory.unlisted
  | (b, w) :: m, a => if a = b then w else Memory.read m a

/-- List a cell with this byte, in rising order, in place of one already listed at the address. -/
def Memory.insert : Memory → Nat → Byte → Memory
  | [], a, v => [(a, v)]
  | (b, w) :: m, a, v =>
    if a < b then (a, v) :: (b, w) :: m
    else if a = b then (a, v) :: m
    else (b, w) :: Memory.insert m a v

/-- Drop what is listed at an address. -/
def Memory.erase : Memory → Nat → Memory
  | [], _ => []
  | (b, w) :: m, a => if a = b then Memory.erase m a else (b, w) :: Memory.erase m a

/-- Store a byte at an address, keeping the canonical form: the unlisted value is not listed. -/
def Memory.write (m : Memory) (a : Nat) (v : Byte) : Memory :=
  if v = Memory.unlisted then m.erase a else m.insert a v

/-- Store bytes at ascending addresses; a byte past address 255 has no cell (log 17). -/
def Memory.load : Memory → Nat → List Byte → Memory
  | m, _, [] => m
  | m, a, v :: vs => Memory.load (if a < Config.memSize then m.write a v else m) (a + 1) vs

/-- Replace memory. -/
def State.setMem (s : State) (m : Memory) : State := { s with mem := m }

/-- The byte memory holds at an address. -/
def State.byteAt (s : State) (a : Nat) : Byte := s.mem.read a

/-- `MemRead(a, 1)` (R9, R40). -/
def memRead (a : Nat) (s : State) : Except FaultCause Byte :=
  if a < Config.memSize then .ok (s.byteAt a) else .error (.addressRange a)

/-- `MemWrite(a, 1, v)` (R9, R40). -/
def memWrite (a : Nat) (v : Byte) (s : State) : Except FaultCause State :=
  if a < Config.memSize then .ok (s.setMem (s.mem.write a v)) else .error (.addressRange a)

/-! ### Taking a fault -/

/-- Fault entry: `run <- Faulted(c)` and nothing else; nothing is saved, no handler is entered and pc stays at the
faulting opcode (R158). -/
def takeFault (c : FaultCause) (s : State) : State := s.setRun (.faulted c)

/-- The end of a step that began in `s`: a handler that raised a fault leaves no trace but the fault (R11, R158,
decision D6; log 5). -/
def completeOrFault (s : State) (r : Except FaultCause State) : Result :=
  match r with
  | .ok t => .next t
  | .error c => .next (takeFault c s)

/-! ### Stack-pointer steps -/

/-- `SpDec`: pre-decrement of PUSH and CALL, which faults at 0 and never wraps (R120, decision D5; log 7). -/
def spDec (s : State) : Except FaultCause State :=
  if s.sp.toNat = 0 then .error (.stackPointerRange s.sp .down)
  else .ok (s.setReg spIndex (s.sp - 1#8))

/-- `SpInc`: post-increment of POP and RET, which faults at 255 and never wraps (R121, decision D5; log 7). -/
def spInc (s : State) : Except FaultCause State :=
  if s.sp.toNat = 255 then .error (.stackPointerRange s.sp .up)
  else .ok (s.setReg spIndex (s.sp + 1#8))

/-! ### Fetch and decode -/

/-- The three bytes of a fetch. -/
structure Fetched where
  opcode : Byte
  operandA : Byte
  operandB : Byte
  deriving DecidableEq, Repr

/-- The fetch: three reads, in this order, whatever the opcode (R62, R80, R81; log 8). -/
def fetch (s : State) : Except FaultCause Fetched := do
  let opcode ← memRead s.pc s
  let operandA ← memRead (s.pc + 1) s
  let operandB ← memRead (s.pc + 2) s
  return ⟨opcode, operandA, operandB⟩

/-- Fetch, then decode under an opcode map (R82). -/
def fetchInstrWith (opc : OpcodeMap) (s : State) : Except FaultCause Instr := do
  let f ← fetch s
  match decodeWith opc f.opcode f.operandA f.operandB with
  | .ok i => .ok i
  | .error (.invalidInstruction op) => .error (.invalidInstruction op s.pc)

/-! ### Reset -/

/-- Start memory: the image from address 0 up, the fill in every other cell (R33, R184). -/
def startMemory (fill : Byte) (image : List Byte) : Memory :=
  Memory.load [] 0 (image ++ List.replicate (Config.memSize - image.length) fill)

/-- Reset, the host's input between steps, from any run state: every register, flag and run state to its reset
value, OUT empty, and memory freshly loaded, so that nothing of the old state survives (R180, R182, R184; log 13). -/
def applyReset (fill : Byte) (image : List Byte) (_ : State) : State :=
  State.reset.setMem (startMemory fill image)

end Sys2Proof.Machine
end

