-- ==== Sys2Proof/Machine/Flags.lean ====
section
/-! DEFINITION. The one flag computation of the machine: CMP's (spec/42_alu.md R116). -/

namespace Sys2Proof.Machine

/-- The flags CMP sets for a left and a right value, compared as unsigned numbers (R116). -/
def compareFlags (u v : Byte) : Flags where
  eq := u == v
  gt := decide (u.toNat > v.toNat)
  lt := decide (u.toNat < v.toNat)

end Sys2Proof.Machine
end

