-- ==== Sys2Proof/Machine/Operands.lean ====
section
/-! DEFINITION. The operand forms (spec/30_encoding.md R64 to R66): a register operand is a whole byte checked at its
use; the immediate is used as it stands and needs no operation. -/

namespace Sys2Proof.Machine

/-- `Reg(b)`: the register a byte names; above 7 it faults, and its upper bits are never masked off (R10, R64,
decision D4; log 6). -/
def regIndex (b : Byte) : Except FaultCause (Fin 8) :=
  if h : b.toNat < 8 then .ok ⟨b.toNat, h⟩ else .error (.registerIndex b)

/-- A jump target: the full content of the register a byte names, as an absolute address (R140). -/
def jumpTarget (b : Byte) (s : State) : Except FaultCause Nat := do
  let i ← regIndex b
  return (s.reg i).toNat

end Sys2Proof.Machine
end

