-- ==== Sys2Proof/Machine/Alu.lean ====
section
/-! DEFINITION. The arithmetic/compare unit and ADD, MUL, CMP (spec/42_alu.md). -/

namespace Sys2Proof.Machine

/-- The operation selector. It has exactly three values, so the "unsupported ALU operation" error cannot arise
(R110, R117; log 11). -/
inductive AluOp
  | add | mul | cmp
  deriving DecidableEq, Repr

/-- Addition modulo 256: the exact sum, narrowed to a byte (R111). -/
def addBytes (u v : Byte) : Byte := BitVec.ofNat 8 (u.toNat + v.toNat)

/-- Multiplication modulo 256: the exact product, narrowed to a byte (R111). -/
def mulBytes (u v : Byte) : Byte := BitVec.ofNat 8 (u.toNat * v.toNat)

/-- The ALU, called with the indices of two registers: it reads both, then writes `x[a]` or the flags (R110). -/
def alu (op : AluOp) (a b : Fin 8) (s : State) : State :=
  match op with
  | .add => s.setReg a (addBytes (s.reg a) (s.reg b))
  | .mul => s.setReg a (mulBytes (s.reg a) (s.reg b))
  | .cmp => s.setFlags (compareFlags (s.reg a) (s.reg b))

/-- The handler ADD, MUL and CMP share: check both operands, run the ALU, advance by 3 (R84, R114 to R116). -/
def handleAlu (op : AluOp) (a b : Byte) (s : State) : Except FaultCause State := do
  let ia ← regIndex a
  let ib ← regIndex b
  return (alu op ia ib s).advance 3

/-- ADD (R114). -/
def execAdd (a b : Byte) (s : State) : Result := completeOrFault s (handleAlu .add a b s)

/-- MUL (R115). -/
def execMul (a b : Byte) (s : State) : Result := completeOrFault s (handleAlu .mul a b s)

/-- CMP (R116). -/
def execCmp (a b : Byte) (s : State) : Result := completeOrFault s (handleAlu .cmp a b s)

end Sys2Proof.Machine
end

