-- ==== Sys2Proof/Machine/CallReturn.lean ====
section
/-! DEFINITION. CALL and RET (spec/44_call_return.md). The statements stand in the order of the rules' pseudocode. -/

namespace Sys2Proof.Machine

/-- The return address CALL pushes, as a byte. A CALL that a step runs has pc at most 253, so the sum fits (R130,
corner 1); `exec` called at a larger pc keeps its low 8 bits (log 15). -/
def returnAddress (pc : Nat) : Byte := BitVec.ofNat 8 (pc + 2)

/-- CALL: push pc + 2, then read the index byte at pc + 1 AGAIN and jump to that register's value (R130, conflict C3,
decision D15; log 9). -/
def handleCall (s : State) : Except FaultCause State := do
  let t ← spDec s
  let u ← memWrite t.sp.toNat (returnAddress s.pc) t
  let r ← memRead (s.pc + 1) u
  let target ← jumpTarget r u
  return u.setPc target

/-- RET: pop a byte into pc (R131). -/
def handleRet (s : State) : Except FaultCause State := do
  let target ← memRead s.sp.toNat s
  let t ← spInc s
  return t.setPc target.toNat

/-- CALL (R130). The fetched operand byte is not used: the handler reads it again. -/
def execCall (_a : Byte) (s : State) : Result := completeOrFault s (handleCall s)

/-- RET (R131). -/
def execRet (s : State) : Result := completeOrFault s (handleRet s)

end Sys2Proof.Machine
end

