-- ==== Sys2Proof/Machine/Jumps.lean ====
section
/-! DEFINITION. JMP, JEQ, JNE (spec/45_jumps.md). -/

namespace Sys2Proof.Machine

/-- Jump to the register an operand byte names when the condition holds; otherwise advance by 2 and leave the operand
byte unused (R65, R140). -/
def jumpIf (taken : Bool) (a : Byte) (s : State) : Except FaultCause State :=
  match taken with
  | true => do
    let target ← jumpTarget a s
    return s.setPc target
  | false => .ok (s.advance 2)

/-- JMP: always taken; no flag is read (R141). -/
def execJmp (a : Byte) (s : State) : Result := completeOrFault s (jumpIf true a s)

/-- JEQ: taken when `FL.E` is set (R142). -/
def execJeq (a : Byte) (s : State) : Result := completeOrFault s (jumpIf s.flags.eq a s)

/-- JNE: taken when `FL.E` is clear (R143). -/
def execJne (a : Byte) (s : State) : Result := completeOrFault s (jumpIf (!s.flags.eq) a s)

end Sys2Proof.Machine
end

