-- ==== Sys2Proof/Machine/LoadOutputHalt.lean ====
section
/-! DEFINITION. LDI, PRN, HLT (spec/41_load_output_halt.md). -/

namespace Sys2Proof.Machine

/-- LDI: `x[d] <- operand_b`, the immediate as it stands (R66, R100). -/
def handleLdi (a imm : Byte) (s : State) : Except FaultCause State := do
  let d ← regIndex a
  return (s.setReg d imm).advance 3

/-- PRN: emit `x[s]` (R101; log 14). -/
def handlePrn (a : Byte) (s : State) : Except FaultCause State := do
  let i ← regIndex a
  return (s.emit (s.reg i)).advance 2

/-- HLT: `run <- Halted`, and pc moves past the byte (R102). -/
def handleHlt (s : State) : Except FaultCause State :=
  .ok ((s.setRun .halted).advance 1)

/-- LDI (R100). -/
def execLdi (a imm : Byte) (s : State) : Result := completeOrFault s (handleLdi a imm s)

/-- PRN (R101). -/
def execPrn (a : Byte) (s : State) : Result := completeOrFault s (handlePrn a s)

/-- HLT (R102). -/
def execHlt (s : State) : Result := completeOrFault s (handleHlt s)

end Sys2Proof.Machine
end

