-- ==== Sys2Proof/Machine/Stack.lean ====
section
/-! DEFINITION. PUSH and POP (spec/43_stack.md). The statements of each handler stand in the order of the rule's
pseudocode: a later one sees the writes of the earlier ones (R8), and the first fault met is the one reported (R157). -/

namespace Sys2Proof.Machine

/-- PUSH: decrement x[7], then store the register as it is after that (R123). -/
def handlePush (a : Byte) (s : State) : Except FaultCause State := do
  let t ← spDec s
  let i ← regIndex a
  let u ← memWrite t.sp.toNat (t.reg i) t
  return u.advance 2

/-- POP: load the register from the top of the stack, then increment x[7] as it is after that (R124). -/
def handlePop (a : Byte) (s : State) : Except FaultCause State := do
  let d ← regIndex a
  let v ← memRead s.sp.toNat s
  let t ← spInc (s.setReg d v)
  return t.advance 2

/-- PUSH (R123). -/
def execPush (a : Byte) (s : State) : Result := completeOrFault s (handlePush a s)

/-- POP (R124). -/
def execPop (a : Byte) (s : State) : Result := completeOrFault s (handlePop a s)

end Sys2Proof.Machine
end

