-- ==== Sys2Proof/Machine/Step.lean ====
section
/-! DEFINITION. The step (spec/40_engine_cycle.md R89, R90): fetch, decode, run the handler. It exists only while `run` is
Running. -/

namespace Sys2Proof.Machine

/-- One step under an opcode map (R68, R90). A fault of the fetch or the decode is taken like any other (R158); a machine
that is not Running has no step (R89; log 16). -/
def stepWith (opc : OpcodeMap) (s : State) : Host.Outcome State Fault Refusal :=
  match s.run with
  | .halted => .fault .halted
  | .faulted c => .fault (.faulted c)
  | .running =>
    match fetchInstrWith opc s with
    | .ok i => exec i s
    | .error c => completeOrFault s (.error c)

/-- One step of the machine, under the default OPC (log 1). -/
def step (s : State) : Host.Outcome State Fault Refusal := stepWith defaultOpc s

/-- The state with an instruction, given as one number, stored where the next step fetches: three bytes from pc up,
every bit from `nbits` up zero. It stands for the host's load of a program (R184, R186; log 12). -/
def State.withFetchWord (s : State) (nbits w : Nat) : State :=
  s.setMem (s.mem.load s.pc [wordByte nbits w 0, wordByte nbits w 1, wordByte nbits w 2])

end Sys2Proof.Machine
end

