-- ==== Sys2Proof/Safety.lean ====
section
/-! DEFINITION. The terms claims use: runs, the invariant of the machine, when a step is clean, when a run is safe. -/

namespace Sys2Proof.Machine

/-- Some number of steps leads from one state to another. -/
inductive Steps : State → State → Prop
  | refl (s : State) : Steps s s
  | tail {s t u : State} : Steps s t → step t = .next u → Steps s u

/-- A run from here never enters `Faulted(c)`. It may halt, or go on for ever (R91). -/
def Safe (s : State) : Prop := ∀ t, Steps s t → ∀ c, t.run ≠ .faulted c

/-- Handlers run one after the other, each on the state the one before it left. -/
def execAll : List Instr → State → Result
  | [], s => .next s
  | i :: is, s =>
    match exec i s with
    | .next t => execAll is t
    | .fault r => .fault r
    | .refused r => .refused r

/-- Exactly one of the three flags is true (R28). -/
def Flags.oneSet (f : Flags) : Prop := [f.eq, f.gt, f.lt].count true = 1

/-- The flags as they can be in a run: all false before the first CMP, exactly one true after it (R28, R29). -/
def Flags.legal (f : Flags) : Prop := f = ⟨false, false, false⟩ ∨ f.oneSet

/-- What a recorded fault says is true of the state it froze (R150, R158). -/
def FaultCause.trueOf (s : State) : FaultCause → Prop
  | .addressRange a => a = 256 ∧ 254 ≤ s.pc
  | .invalidInstruction op p => p = s.pc ∧ s.pc ≤ 253 ∧ s.byteAt s.pc = op ∧ ∀ m, defaultOpc m ≠ op
  | .registerIndex b => 8 ≤ b.toNat ∧ s.pc ≤ 253
  | .stackPointerRange v .down => v = 0#8 ∧ s.sp = 0#8 ∧ s.pc ≤ 253
  | .stackPointerRange v .up => v = 255#8 ∧ s.pc ≤ 253
  | .aluSelector => False

/-- The run state is one a run can be in. -/
def State.runLegal (s : State) : Prop :=
  match s.run with
  | .running => True
  | .halted => 1 ≤ s.pc ∧ s.pc ≤ 254
  | .faulted c => c.trueOf s

/-- The invariant of the machine. -/
structure Inv (s : State) : Prop where
  /-- Memory is in its canonical form. -/
  memWf : s.mem.wf = true
  /-- The program counter is 0 to 256 (R24). -/
  pcRange : s.pc ≤ 256
  /-- At most one flag is true (R28, R29). -/
  flagsLegal : s.flags.legal
  /-- A stop records the truth (R30, R150). -/
  runLegal : s.runLegal

/-- The byte CALL uses as its register index: the one at pc + 1, unless the push has just overwritten it with the
return address (R130, corner 2). -/
def callIndex (s : State) : Byte :=
  if s.sp.toNat - 1 = s.pc + 1 then returnAddress s.pc else s.byteAt (s.pc + 1)

/-- What a program has to see to for an instruction not to fault (R189). -/
def Clean (s : State) : Instr → Prop
  | .ldi a _ => a.toNat < 8
  | .prn a => a.toNat < 8
  | .hlt => True
  | .add a b => a.toNat < 8 ∧ b.toNat < 8
  | .mul a b => a.toNat < 8 ∧ b.toNat < 8
  | .cmp a b => a.toNat < 8 ∧ b.toNat < 8
  | .push a => s.sp.toNat ≠ 0 ∧ a.toNat < 8
  | .pop a => a.toNat < 7 ∧ s.sp.toNat ≠ 255 ∨ a.toNat = 7 ∧ (s.byteAt s.sp.toNat).toNat ≠ 255
  | .call _ => s.sp.toNat ≠ 0 ∧ (callIndex s).toNat < 8
  | .ret => s.sp.toNat ≠ 255
  | .jmp a => a.toNat < 8
  | .jeq a => s.flags.eq = true → a.toNat < 8
  | .jne a => s.flags.eq = false → a.toNat < 8

/-- The two flags no instruction reads, set to a fixed value: what is left is what an instruction can depend on (R28). -/
def State.forgetGtLt (s : State) : State := s.setFlags ⟨s.flags.eq, false, false⟩

end Sys2Proof.Machine
end

