-- ==== Sys2Proof/Certificates/Slice0/Obligations.lean ====
section
/-! DEFINITION. The statements for the provers, each about every state and every operand unless it says otherwise. A
docstring names the rules of spec/ a statement formalises. Where a clause rests on a decision of the spec
(spec/92_eei_decisions.md) or on a choice of the model, it names that decision and the log entry. -/

open Sys2Proof Sys2Proof.Machine

/-! ### Encoding -/

/-- Words written out bit by bit from the encodings of spec/opcode_table.json decode to the instructions they stand
for, and no two mnemonics share a byte. The opcode values are the default OPC, which the spec takes from general
knowledge (decision D1, log 1). -/
def Obligations.TableWordsDecode : Prop :=
  decode 0b10000010#8 0b00000011#8 0b11111111#8 = .ok (.ldi 3#8 255#8) ∧
  decode 0b01000111#8 0b00000010#8 0b10011001#8 = .ok (.prn 2#8) ∧
  decode 0b00000001#8 0b11111111#8 0b11111111#8 = .ok .hlt ∧
  decode 0b10100000#8 0b00000000#8 0b00000001#8 = .ok (.add 0#8 1#8) ∧
  decode 0b10100010#8 0b00000010#8 0b00000001#8 = .ok (.mul 2#8 1#8) ∧
  decode 0b10100111#8 0b00000100#8 0b00000101#8 = .ok (.cmp 4#8 5#8) ∧
  decode 0b01000101#8 0b00000111#8 0b00000000#8 = .ok (.push 7#8) ∧
  decode 0b01000110#8 0b00000001#8 0b00000000#8 = .ok (.pop 1#8) ∧
  decode 0b01010000#8 0b00000001#8 0b00000000#8 = .ok (.call 1#8) ∧
  decode 0b00010001#8 0b00000000#8 0b00000000#8 = .ok .ret ∧
  decode 0b01010100#8 0b00000011#8 0b00000000#8 = .ok (.jmp 3#8) ∧
  decode 0b01010101#8 0b00001001#8 0b00000000#8 = .ok (.jeq 9#8) ∧
  decode 0b01010110#8 0b00000110#8 0b00000000#8 = .ok (.jne 6#8) ∧
  Function.Injective defaultOpc

/-- Decode inverts encode: for every injective OPC, three bytes that begin with an instruction's encoding decode to
that instruction, whatever bytes follow it, with every operand at every value (R60 to R62, R67). The last clause
says the same of the number form `decodeTableWord` under the default OPC (log 1). -/
def Obligations.DecodeInvertsEncode : Prop :=
  (∀ (opc : OpcodeMap), Function.Injective opc → ∀ (i : Instr) (op a b : Byte),
    encodeWith opc i <+: [op, a, b] → decodeWith opc op a b = .ok i) ∧
  (∀ i : Instr, decodeTableWord (8 * (encode i).length)
    ((encode i).foldr (fun v w => v.toNat + 256 * w) 0) = some i)

/-- Encode inverts decode: what three bytes decode to is encoded by those bytes, or by the first of them, for every
OPC; so each instruction has one encoding (R60, R61, R67). -/
def Obligations.EncodeInvertsDecode : Prop :=
  ∀ (opc : OpcodeMap) (op a b : Byte) (i : Instr),
    decodeWith opc op a b = .ok i → encodeWith opc i <+: [op, a, b]

/-- Decoding is an exact match of the whole opcode byte against the 13 entries: it fails, by name, exactly on the bytes
that are no mnemonic's opcode, and a step that meets such a byte reports it and stops; the operand bytes take no part
in selecting the mnemonic (R67). OPC is a parameter, injective as R67 asks. -/
def Obligations.DecodeIsExactMatch : Prop :=
  (∀ (opc : OpcodeMap), Function.Injective opc → ∀ op : Byte,
    (∀ m, opc m = op → ∀ a b, ∃ i, decodeWith opc op a b = .ok i ∧ mnemonicOf i = m) ∧
    ((∀ m, opc m ≠ op) → (∀ a b, decodeWith opc op a b = .error (.invalidInstruction op)) ∧
      ∀ s : State, s.run = .running → s.pc ≤ 253 → s.byteAt s.pc = op →
        ∃ t, stepWith opc s = .next t ∧ t.run = .faulted (.invalidInstruction op s.pc))) ∧
  mnemonics.length = 13 ∧ mnemonics.Nodup ∧ ∀ m, m ∈ mnemonics

/-! ### The step -/

/-- A step runs the decoded instruction: while the machine is Running, if the three bytes at pc, all inside memory,
decode to `i`, the step is `exec i` on that very state; the pc update is the handler's (R85, R90). Under every OPC;
`step` is the step under the default one. -/
def Obligations.StepRunsTheDecodedInstruction : Prop :=
  (∀ (opc : OpcodeMap) (s : State) (i : Instr),
    s.run = .running → s.pc ≤ 253 →
    decodeWith opc (s.byteAt s.pc) (s.byteAt (s.pc + 1)) (s.byteAt (s.pc + 2)) = .ok i →
    stepWith opc s = exec i s) ∧
  (∀ s : State, step s = stepWith defaultOpc s)

/-- The opcode byte alone is looked up: if it is no opcode the step faults with the byte and its address, and changes
nothing else; if it is, the handler of its mnemonic runs with the two operand bytes (R82). -/
def Obligations.OpcodeByteSelectsTheHandler : Prop :=
  ∀ (opc : OpcodeMap) (s : State), Function.Injective opc → s.run = .running → s.pc ≤ 253 →
    ((∀ m, opc m ≠ s.byteAt s.pc) →
      stepWith opc s = .next { s with run := .faulted (.invalidInstruction (s.byteAt s.pc) s.pc) }) ∧
    (∀ m, opc m = s.byteAt s.pc →
      stepWith opc s = exec (buildInstr m (s.byteAt (s.pc + 1)) (s.byteAt (s.pc + 2))) s)

/-- The fetch reads three bytes whatever the opcode: with pc at 254, 255 or 256 every step faults with address 256 and
changes nothing else, even on a one-byte instruction or an invalid byte. Rests on the spec's decisions D3, D7 and D21
(log 8, log 10). -/
def Obligations.FetchPastTheTopFaults : Prop :=
  ∀ (opc : OpcodeMap) (s : State), s.run = .running → 254 ≤ s.pc → s.pc ≤ 256 →
    stepWith opc s = .next { s with run := .faulted (.addressRange 256) }

/-- A machine that is not Running has no step, and so a run that has reached `Halted` or `Faulted(c)` stays there. How
the model answers the attempt, a stop that names the run state, is its choice (log 16). -/
def Obligations.StoppedMachineHasNoStep : Prop :=
  (∀ s : State, s.run = .halted → step s = .fault .halted) ∧
  (∀ (s : State) (c : FaultCause), s.run = .faulted c → step s = .fault (.faulted c)) ∧
  (∀ s t : State, s.run ≠ .running → Steps s t → t = s)

/-- A step of a Running machine always answers a state, by exactly one of three outcomes: it completes and stays Running
(every instruction but HLT), it completes and is Halted (HLT), or it records a fault and leaves the rest as it was
(R86). -/
def Obligations.StepHasOneOfThreeOutcomes : Prop :=
  ∀ (opc : OpcodeMap) (s : State), s.run = .running → ∃ t, stepWith opc s = .next t ∧
    ((t.run = .running ∧ ∃ i, fetchInstrWith opc s = .ok i ∧ i ≠ .hlt) ∨
     (t.run = .halted ∧ fetchInstrWith opc s = .ok .hlt) ∨
     (∃ c, t = { s with run := .faulted c }))

/-- An instruction faults exactly when the program has not seen to what the spec asks of it: `Clean` says, for each
instruction, which operands and which stack pointer it runs to completion with. POP R7 steps from the byte it has
loaded (43_stack.md section 2); CALL's index byte is the one memory holds after its push, `callIndex` (44_call_return.md,
conflict C3); a JEQ or JNE not taken does not use its operand (30_encoding.md section 2, 45_jumps.md). Rests on the
spec's decisions D4, D5 and D15 (log 6, log 7, log 9). -/
def Obligations.FaultsExactlyWhenNotClean : Prop :=
  ∀ (i : Instr) (s : State), s.run = .running → s.pc ≤ 253 →
    ((∃ t, exec i s = .next t ∧ ∀ c, t.run ≠ .faulted c) ↔ Clean s i)

/-- The unreachable error stays unreachable: no step of any machine records the ALU selector fault (60_exceptions.md
section 1; that the model keeps the cause among its data is decision D20, log 11). -/
def Obligations.AluSelectorFaultNeverRaised : Prop :=
  ∀ (opc : OpcodeMap) (s t : State), stepWith opc s = .next t → t.run ≠ .faulted .aluSelector

/-- A well-formed instruction never faults on a register index. CALL is left out of the first clause because it reads
its index byte again (log 9); the second gives its condition: the push does not land on that byte. -/
def Obligations.WellFormedNeverFaultsOnIndex : Prop :=
  (∀ (i : Instr) (s t : State), i.wf = true → (∀ a, i ≠ .call a) → s.run = .running → exec i s = .next t →
    ∀ b, t.run ≠ .faulted (.registerIndex b)) ∧
  (∀ (a : Byte) (s t : State), (Instr.call a).wf = true → s.run = .running → s.pc ≤ 253 →
    s.byteAt (s.pc + 1) = a → s.sp.toNat ≠ s.pc + 2 → exec (.call a) s = .next t →
    ∀ b, t.run ≠ .faulted (.registerIndex b))

/-! ### What each instruction does -/

/-- LDI: with its operand in range it completes, writes the immediate as it stands to its register, moves pc on by 3
and changes nothing else; with its operand above 7 it faults. Its bytes are the opcode, the index, the immediate
(R100; the fault's policy is decision D4, log 6). -/
def Obligations.LdiWritesItsImmediate : Prop :=
  ∀ (a imm : Byte) (s : State),
    (∀ opc : OpcodeMap, encodeWith opc (.ldi a imm) = [opc .ldi, a, imm]) ∧
    (∀ h : a.toNat < 8, ∃ t, exec (.ldi a imm) s = .next t ∧
      t.reg ⟨a.toNat, h⟩ = imm ∧ (∀ j : Fin 8, j.val ≠ a.toNat → t.reg j = s.reg j) ∧
      t.pc = s.pc + 3 ∧ t.flags = s.flags ∧ t.run = s.run ∧ t.mem = s.mem ∧ t.out = s.out) ∧
    (8 ≤ a.toNat → exec (.ldi a imm) s = .next { s with run := .faulted (.registerIndex a) })

/-- PRN: with its operand in range it completes, appends the register's byte to OUT, moves pc on by 2 and changes
nothing else; with its operand above 7 it faults and emits nothing (R101; the fault's policy is decision D4, log 6). -/
def Obligations.PrnEmitsItsRegister : Prop :=
  ∀ (a : Byte) (s : State),
    (∀ opc : OpcodeMap, encodeWith opc (.prn a) = [opc .prn, a]) ∧
    (∀ h : a.toNat < 8, ∃ t, exec (.prn a) s = .next t ∧
      t.out = s.out ++ [s.reg ⟨a.toNat, h⟩] ∧
      t.pc = s.pc + 2 ∧ t.regs = s.regs ∧ t.flags = s.flags ∧ t.run = s.run ∧ t.mem = s.mem) ∧
    (8 ≤ a.toNat → exec (.prn a) s = .next { s with run := .faulted (.registerIndex a) })

/-- HLT: it completes in every state, leaves `run` Halted and pc one past its byte, and changes nothing else. At address
254 or 255 a step never reaches it: the fetch faults (R102; the fault's policy is conflict C2, decisions D3 and D21,
log 8). Address 256 is in FetchPastTheTopFaults. -/
def Obligations.HltStopsTheRun : Prop :=
  (∀ opc : OpcodeMap, encodeWith opc .hlt = [opc .hlt]) ∧
  (∀ s : State, exec .hlt s = .next { s with run := .halted, pc := s.pc + 1 }) ∧
  (∀ (opc : OpcodeMap) (s : State), s.run = .running → s.pc = 254 ∨ s.pc = 255 →
    stepWith opc s = .next { s with run := .faulted (.addressRange 256) })

/-- ADD: with both operands in range it completes, writes the sum of the two registers modulo 256 to the first, moves pc
on by 3 and changes nothing else, flags included; with an operand above 7 it faults with the first such operand and
writes nothing (R114; the fault's policy is decision D4, log 6). -/
def Obligations.AddWritesTheSumModulo256 : Prop :=
  ∀ (a b : Byte) (s : State),
    (∀ opc : OpcodeMap, encodeWith opc (.add a b) = [opc .add, a, b]) ∧
    (∀ (ha : a.toNat < 8) (hb : b.toNat < 8), ∃ t, exec (.add a b) s = .next t ∧
      (t.reg ⟨a.toNat, ha⟩).toNat = ((s.reg ⟨a.toNat, ha⟩).toNat + (s.reg ⟨b.toNat, hb⟩).toNat) % 256 ∧
      (∀ j : Fin 8, j.val ≠ a.toNat → t.reg j = s.reg j) ∧
      t.pc = s.pc + 3 ∧ t.flags = s.flags ∧ t.run = s.run ∧ t.mem = s.mem ∧ t.out = s.out) ∧
    (8 ≤ a.toNat → exec (.add a b) s = .next { s with run := .faulted (.registerIndex a) }) ∧
    (a.toNat < 8 → 8 ≤ b.toNat → exec (.add a b) s = .next { s with run := .faulted (.registerIndex b) })

/-- MUL: as ADD, with the product modulo 256 (R115; the fault's policy is decision D4, log 6). -/
def Obligations.MulWritesTheProductModulo256 : Prop :=
  ∀ (a b : Byte) (s : State),
    (∀ opc : OpcodeMap, encodeWith opc (.mul a b) = [opc .mul, a, b]) ∧
    (∀ (ha : a.toNat < 8) (hb : b.toNat < 8), ∃ t, exec (.mul a b) s = .next t ∧
      (t.reg ⟨a.toNat, ha⟩).toNat = ((s.reg ⟨a.toNat, ha⟩).toNat * (s.reg ⟨b.toNat, hb⟩).toNat) % 256 ∧
      (∀ j : Fin 8, j.val ≠ a.toNat → t.reg j = s.reg j) ∧
      t.pc = s.pc + 3 ∧ t.flags = s.flags ∧ t.run = s.run ∧ t.mem = s.mem ∧ t.out = s.out) ∧
    (8 ≤ a.toNat → exec (.mul a b) s = .next { s with run := .faulted (.registerIndex a) }) ∧
    (a.toNat < 8 → 8 ≤ b.toNat → exec (.mul a b) s = .next { s with run := .faulted (.registerIndex b) })

/-- CMP: with both operands in range it completes, sets the three flags to equal, greater and less of the two registers
as unsigned numbers, exactly one of them true, moves pc on by 3 and changes nothing else, registers included; with an
operand above 7 it faults with the first such operand and leaves the flags (R116; the fault's policy is decision D4,
log 6). -/
def Obligations.CmpSetsExactlyOneFlag : Prop :=
  ∀ (a b : Byte) (s : State),
    (∀ opc : OpcodeMap, encodeWith opc (.cmp a b) = [opc .cmp, a, b]) ∧
    (∀ (ha : a.toNat < 8) (hb : b.toNat < 8), ∃ t, exec (.cmp a b) s = .next t ∧
      (t.flags.eq = true ↔ (s.reg ⟨a.toNat, ha⟩).toNat = (s.reg ⟨b.toNat, hb⟩).toNat) ∧
      (t.flags.gt = true ↔ (s.reg ⟨a.toNat, ha⟩).toNat > (s.reg ⟨b.toNat, hb⟩).toNat) ∧
      (t.flags.lt = true ↔ (s.reg ⟨a.toNat, ha⟩).toNat < (s.reg ⟨b.toNat, hb⟩).toNat) ∧
      t.flags.oneSet ∧
      t.pc = s.pc + 3 ∧ t.regs = s.regs ∧ t.run = s.run ∧ t.mem = s.mem ∧ t.out = s.out) ∧
    (8 ≤ a.toNat → exec (.cmp a b) s = .next { s with run := .faulted (.registerIndex a) }) ∧
    (a.toNat < 8 → 8 ≤ b.toNat → exec (.cmp a b) s = .next { s with run := .faulted (.registerIndex b) })

/-- PUSH: with x[7] not 0 and its operand in range it completes: x[7] goes down by 1, the cell it then names gets the
operand register as it is AFTER the decrement (so PUSH R7 stores the decremented pointer), pc goes on by 2, and
nothing else changes. With x[7] = 0 it reports the stack pointer, whatever the operand; otherwise an operand above 7
is reported; either way nothing is written (43_stack.md; decisions D4, D5, D7: log 6, log 7, log 10). -/
def Obligations.PushStoresBelowTheStackPointer : Prop :=
  ∀ (a : Byte) (s : State),
    (∀ opc : OpcodeMap, encodeWith opc (.push a) = [opc .push, a]) ∧
    (∀ h : a.toNat < 8, s.sp.toNat ≠ 0 → ∃ t, exec (.push a) s = .next t ∧
      t.sp.toNat = s.sp.toNat - 1 ∧ (∀ j : Fin 8, j ≠ 7 → t.reg j = s.reg j) ∧
      t.byteAt (s.sp.toNat - 1) = t.reg ⟨a.toNat, h⟩ ∧
      (∀ x, x ≠ s.sp.toNat - 1 → t.byteAt x = s.byteAt x) ∧
      t.pc = s.pc + 2 ∧ t.flags = s.flags ∧ t.run = s.run ∧ t.out = s.out) ∧
    (s.sp.toNat = 0 → exec (.push a) s = .next { s with run := .faulted (.stackPointerRange 0#8 .down) }) ∧
    (s.sp.toNat ≠ 0 → 8 ≤ a.toNat → exec (.push a) s = .next { s with run := .faulted (.registerIndex a) })

/-- POP: the operand register gets the byte at x[7], then x[7] as it is after that goes up by 1, pc goes on by 2, and
nothing else changes, memory included. For a register other than 7, x[7] ends one up from where it was, and x[7] = 255
faults; for POP R7, x[7] ends one above the byte loaded, and a loaded 255 faults. An operand above 7 is reported first
(43_stack.md; decisions D4, D5, D7: log 6, log 7, log 10). -/
def Obligations.PopLoadsFromTheStackPointer : Prop :=
  ∀ (a : Byte) (s : State),
    (∀ opc : OpcodeMap, encodeWith opc (.pop a) = [opc .pop, a]) ∧
    (∀ h : a.toNat < 7, s.sp.toNat ≠ 255 → ∃ t, exec (.pop a) s = .next t ∧
      t.reg ⟨a.toNat, by omega⟩ = s.byteAt s.sp.toNat ∧ t.sp.toNat = s.sp.toNat + 1 ∧
      (∀ j : Fin 8, j.val ≠ a.toNat → j ≠ 7 → t.reg j = s.reg j) ∧
      t.pc = s.pc + 2 ∧ t.flags = s.flags ∧ t.run = s.run ∧ t.mem = s.mem ∧ t.out = s.out) ∧
    (a.toNat = 7 → (s.byteAt s.sp.toNat).toNat ≠ 255 → ∃ t, exec (.pop a) s = .next t ∧
      t.sp.toNat = (s.byteAt s.sp.toNat).toNat + 1 ∧ (∀ j : Fin 8, j ≠ 7 → t.reg j = s.reg j) ∧
      t.pc = s.pc + 2 ∧ t.flags = s.flags ∧ t.run = s.run ∧ t.mem = s.mem ∧ t.out = s.out) ∧
    (8 ≤ a.toNat → exec (.pop a) s = .next { s with run := .faulted (.registerIndex a) }) ∧
    (a.toNat < 7 → s.sp.toNat = 255 →
      exec (.pop a) s = .next { s with run := .faulted (.stackPointerRange 255#8 .up) }) ∧
    (a.toNat = 7 → (s.byteAt s.sp.toNat).toNat = 255 →
      exec (.pop a) s = .next { s with run := .faulted (.stackPointerRange 255#8 .up) })

/-- CALL: with x[7] not 0 it pushes pc + 2 as one byte below the stack pointer, reads the index byte at pc + 1 again
after the push, and, that byte being 0 to 7, completes with pc at that register's value as it is after the decrement;
no register but x[7] and no other cell changes. The index byte is the one memory held, unless the push has just
overwritten it, when it is the return address. With x[7] = 0 it reports the stack pointer; otherwise an index above 7
is reported; either way nothing is written (44_call_return.md; decisions D4, D5, D7, D15: log 6, log 7, log 9, log 10). -/
def Obligations.CallPushesAndJumps : Prop :=
  ∀ (a : Byte) (s : State), s.pc ≤ 253 →
    (∀ opc : OpcodeMap, encodeWith opc (.call a) = [opc .call, a]) ∧
    (∀ r : Byte, (s.sp.toNat = s.pc + 2 → r = BitVec.ofNat 8 (s.pc + 2)) →
      (s.sp.toNat ≠ s.pc + 2 → r = s.byteAt (s.pc + 1)) → s.sp.toNat ≠ 0 →
      (∀ h : r.toNat < 8, ∃ t, exec (.call a) s = .next t ∧
        t.sp.toNat = s.sp.toNat - 1 ∧ (∀ j : Fin 8, j ≠ 7 → t.reg j = s.reg j) ∧
        (t.byteAt (s.sp.toNat - 1)).toNat = s.pc + 2 ∧
        (∀ x, x ≠ s.sp.toNat - 1 → t.byteAt x = s.byteAt x) ∧
        t.pc = (t.reg ⟨r.toNat, h⟩).toNat ∧ t.flags = s.flags ∧ t.run = s.run ∧ t.out = s.out) ∧
      (8 ≤ r.toNat → exec (.call a) s = .next { s with run := .faulted (.registerIndex r) })) ∧
    (s.sp.toNat = 0 → exec (.call a) s = .next { s with run := .faulted (.stackPointerRange 0#8 .down) })

/-- RET: with x[7] not 255 it completes: pc gets the byte at x[7], x[7] goes up by 1, and nothing else changes, memory
included; with x[7] = 255 it faults and writes nothing (R131; the fault's policy is decision D5, log 7). -/
def Obligations.RetPopsIntoPc : Prop :=
  ∀ s : State,
    (∀ opc : OpcodeMap, encodeWith opc .ret = [opc .ret]) ∧
    (s.sp.toNat ≠ 255 → ∃ t, exec .ret s = .next t ∧
      t.pc = (s.byteAt s.sp.toNat).toNat ∧ t.sp.toNat = s.sp.toNat + 1 ∧
      (∀ j : Fin 8, j ≠ 7 → t.reg j = s.reg j) ∧
      t.flags = s.flags ∧ t.run = s.run ∧ t.mem = s.mem ∧ t.out = s.out) ∧
    (s.sp.toNat = 255 → exec .ret s = .next { s with run := .faulted (.stackPointerRange 255#8 .up) })

/-- JMP: with its operand in range it completes with pc at the register's value and changes nothing else, reading no
flag; with its operand above 7 it faults (R141; the fault's policy is decision D4, log 6). -/
def Obligations.JmpGoesToItsRegister : Prop :=
  ∀ (a : Byte) (s : State),
    (∀ opc : OpcodeMap, encodeWith opc (.jmp a) = [opc .jmp, a]) ∧
    (∀ h : a.toNat < 8, exec (.jmp a) s = .next { s with pc := (s.reg ⟨a.toNat, h⟩).toNat }) ∧
    (8 ≤ a.toNat → exec (.jmp a) s = .next { s with run := .faulted (.registerIndex a) })

/-- JEQ: with Equal set it goes to its register, or faults when its operand is above 7; with Equal clear it completes
with pc + 2, whatever the operand byte. Nothing else changes, and no other flag is read (R142; the fault's policy is
decision D4, log 6). -/
def Obligations.JeqJumpsWhenEqualIsSet : Prop :=
  ∀ (a : Byte) (s : State),
    (∀ opc : OpcodeMap, encodeWith opc (.jeq a) = [opc .jeq, a]) ∧
    (∀ h : a.toNat < 8, s.flags.eq = true →
      exec (.jeq a) s = .next { s with pc := (s.reg ⟨a.toNat, h⟩).toNat }) ∧
    (8 ≤ a.toNat → s.flags.eq = true → exec (.jeq a) s = .next { s with run := .faulted (.registerIndex a) }) ∧
    (s.flags.eq = false → exec (.jeq a) s = .next { s with pc := s.pc + 2 })

/-- JNE: with Equal clear it goes to its register, or faults when its operand is above 7; with Equal set it completes
with pc + 2, whatever the operand byte. Nothing else changes, and no other flag is read: before the first CMP, with all
flags clear, it is taken (R143; the fault's policy is decision D4, log 6). -/
def Obligations.JneJumpsWhenEqualIsClear : Prop :=
  ∀ (a : Byte) (s : State),
    (∀ opc : OpcodeMap, encodeWith opc (.jne a) = [opc .jne, a]) ∧
    (∀ h : a.toNat < 8, s.flags.eq = false →
      exec (.jne a) s = .next { s with pc := (s.reg ⟨a.toNat, h⟩).toNat }) ∧
    (8 ≤ a.toNat → s.flags.eq = false → exec (.jne a) s = .next { s with run := .faulted (.registerIndex a) }) ∧
    (s.flags.eq = true → exec (.jne a) s = .next { s with pc := s.pc + 2 })

/-! ### Rules over all instructions -/

/-- The new pc of a completed step, row by row of the table of 40_engine_cycle.md section 4; the sums are exact. In CALL's
row the index byte is read in the state after the push and its register after the decrement (44_call_return.md,
conflict C3, decision D15: log 9). -/
def Obligations.NewPcFollowsTheTable : Prop :=
  ∀ (i : Instr) (s t : State), s.run = .running → exec i s = .next t → (∀ c, t.run ≠ .faulted c) →
    match i with
    | .ldi _ _ => t.pc = s.pc + 3
    | .prn _ => t.pc = s.pc + 2
    | .hlt => t.pc = s.pc + 1
    | .add _ _ => t.pc = s.pc + 3
    | .mul _ _ => t.pc = s.pc + 3
    | .cmp _ _ => t.pc = s.pc + 3
    | .push _ => t.pc = s.pc + 2
    | .pop _ => t.pc = s.pc + 2
    | .call _ => ∃ h : (t.byteAt (s.pc + 1)).toNat < 8, t.pc = (t.reg ⟨(t.byteAt (s.pc + 1)).toNat, h⟩).toNat
    | .ret => t.pc = (s.byteAt s.sp.toNat).toNat
    | .jmp a => ∃ h : a.toNat < 8, t.pc = (s.reg ⟨a.toNat, h⟩).toNat
    | .jeq a => if s.flags.eq = true then ∃ h : a.toNat < 8, t.pc = (s.reg ⟨a.toNat, h⟩).toNat else t.pc = s.pc + 2
    | .jne a => if s.flags.eq = false then ∃ h : a.toNat < 8, t.pc = (s.reg ⟨a.toNat, h⟩).toNat else t.pc = s.pc + 2

/-- The advance is the encoding's length: an instruction that completes and does not replace pc leaves it just past its
own bytes, under every OPC. -/
def Obligations.AdvanceIsTheEncodedLength : Prop :=
  ∀ (opc : OpcodeMap) (i : Instr) (s t : State), s.run = .running → exec i s = .next t →
    (∀ c, t.run ≠ .faulted c) →
    mnemonicOf i ∈ [.ldi, .prn, .hlt, .add, .mul, .cmp, .push, .pop] →
    t.pc = s.pc + (encodeWith opc i).length

/-- The flags are written by CMP alone and read by JEQ and JNE alone: every other instruction leaves all three as they
are, and does the same whatever they hold; CMP does not depend on their old values (R27). -/
def Obligations.FlagsWrittenByCmpReadByJumps : Prop :=
  (∀ (i : Instr) (s t : State), (∀ a b, i ≠ .cmp a b) → exec i s = .next t → t.flags = s.flags) ∧
  (∀ (i : Instr) (s t : State) (f : Flags), (∀ a b, i ≠ .cmp a b) → (∀ a, i ≠ .jeq a) → (∀ a, i ≠ .jne a) →
    exec i s = .next t → exec i { s with flags := f } = .next { t with flags := f }) ∧
  (∀ (a b : Byte) (s t : State) (f : Flags), s.run = .running → exec (.cmp a b) s = .next t →
    (∀ c, t.run ≠ .faulted c) → exec (.cmp a b) { s with flags := f } = .next t)

/-- Greater-Than and Less-Than have no reader: two states that differ in nothing else take steps to states that differ in
nothing else, so those two flags never reach a register, memory, pc, the run state, OUT or Equal (10_state.md section 3). -/
def Obligations.GreaterAndLessAreNeverRead : Prop :=
  ∀ (s s' t : State), s.forgetGtLt = s'.forgetGtLt → step s = .next t →
    ∃ t', step s' = .next t' ∧ t.forgetGtLt = t'.forgetGtLt

/-- OUT is write-only and only grows: a step appends nothing, or, for PRN with its operand in range, the register's byte;
and it does so whatever OUT held before (10_state.md; that OUT is a list of bytes is decision D14, log 14). -/
def Obligations.OutIsWriteOnly : Prop :=
  ∀ s t : State, step s = .next t → ∃ e : List Byte, t.out = s.out ++ e ∧
    (e = [] ∨ ∃ (a : Byte) (h : a.toNat < 8), fetchInstrWith defaultOpc s = .ok (.prn a) ∧ e = [s.reg ⟨a.toNat, h⟩]) ∧
    ∀ o : List Byte, step { s with out := o } = .next { t with out := o ++ e }

/-- The bytes emitted in a run are never retracted: along every run OUT only grows at its end. -/
def Obligations.OutGrowsAlongEveryRun : Prop :=
  ∀ s t : State, Steps s t → s.out <+: t.out

/-- Once a CMP has set the flags, exactly one is true for the rest of the run (an inference the spec draws in
10_state.md section 3). -/
def Obligations.OneFlagStaysSet : Prop :=
  ∀ s t : State, s.flags.oneSet → Steps s t → t.flags.oneSet

/-- In any state exactly one of JEQ and JNE is taken: one of them is the JMP to the same register and the other falls
through to pc + 2 (an inference the spec draws in 45_jumps.md). -/
def Obligations.ExactlyOneOfJeqAndJneIsTaken : Prop :=
  ∀ (a : Byte) (s : State),
    (exec (.jeq a) s = exec (.jmp a) s ∧ exec (.jne a) s = .next { s with pc := s.pc + 2 } ∧ s.flags.eq = true) ∨
    (exec (.jne a) s = exec (.jmp a) s ∧ exec (.jeq a) s = .next { s with pc := s.pc + 2 } ∧ s.flags.eq = false)

/-! ### Frames -/

/-- Frame of the instructions that write a general register and store nothing (LDI, ADD, MUL): when `exec` answers a next
state, every register but the first operand's, every flag, every byte of memory and OUT are unchanged, and `run` is
unchanged or records a fault, and then nothing at all is changed but `run`. -/
def Obligations.RegisterWritersFrame : Prop :=
  ∀ (a b : Byte) (i : Instr) (s t : State), i = .ldi a b ∨ i = .add a b ∨ i = .mul a b → exec i s = .next t →
    (∀ j : Fin 8, j.val ≠ a.toNat → t.reg j = s.reg j) ∧ t.flags = s.flags ∧
    (∀ x, t.byteAt x = s.byteAt x) ∧ t.out = s.out ∧
    (t.run = s.run ∨ ∃ c, t = { s with run := .faulted c })

/-- Frame of the instructions that write no register and no memory (PRN, HLT, CMP, JMP, JEQ, JNE): when `exec` answers a
next state, every register and every byte of memory are unchanged; the flags are unchanged but by CMP; OUT is unchanged
but by PRN; and `run` is unchanged, is Halted by HLT, or records a fault, and then nothing at all is changed but `run`. -/
def Obligations.NoRegisterNoMemoryFrame : Prop :=
  ∀ (i : Instr) (s t : State), mnemonicOf i ∈ [.prn, .hlt, .cmp, .jmp, .jeq, .jne] → exec i s = .next t →
    (∀ j : Fin 8, t.reg j = s.reg j) ∧ (∀ x, t.byteAt x = s.byteAt x) ∧
    (mnemonicOf i ≠ .cmp → t.flags = s.flags) ∧ (mnemonicOf i ≠ .prn → t.out = s.out) ∧
    (t.run = s.run ∨ (i = .hlt ∧ t.run = .halted) ∨ ∃ c, t = { s with run := .faulted c })

/-- Frame of the two instructions that store (PUSH, CALL): the address stored to is the stack pointer after `spDec`, the
operation both handlers use. When `exec` answers a next state, every byte of memory outside that one address reads as
before, every register but x[7] is unchanged, and so are the flags and OUT; where `spDec` faults, no byte changes at
all; and `run` is unchanged or records a fault, and then nothing at all is changed but `run`. -/
def Obligations.StoringFrame : Prop :=
  ∀ (a : Byte) (i : Instr) (s t : State), i = .push a ∨ i = .call a → exec i s = .next t →
    (∀ d, spDec s = .ok d → ∀ x, x ≠ d.sp.toNat → t.byteAt x = s.byteAt x) ∧
    (∀ c, spDec s = .error c → ∀ x, t.byteAt x = s.byteAt x) ∧
    (∀ j : Fin 8, j ≠ 7 → t.reg j = s.reg j) ∧ t.flags = s.flags ∧ t.out = s.out ∧
    (t.run = s.run ∨ ∃ c, t = { s with run := .faulted c })

/-- Frame of the instructions that read the stack (POP, RET): when `exec` answers a next state, every byte of memory is
unchanged (a pop does not erase the cell), every register but x[7] and POP's operand is unchanged, and so are the flags
and OUT; and `run` is unchanged or records a fault, and then nothing at all is changed but `run`. -/
def Obligations.StackReadersFrame : Prop :=
  ∀ (a : Byte) (i : Instr) (s t : State), i = .pop a ∨ i = .ret → exec i s = .next t →
    (∀ x, t.byteAt x = s.byteAt x) ∧
    (∀ j : Fin 8, j ≠ 7 → (i = .pop a → j.val ≠ a.toNat) → t.reg j = s.reg j) ∧
    t.flags = s.flags ∧ t.out = s.out ∧
    (t.run = s.run ∨ ∃ c, t = { s with run := .faulted c })

/-- Memory is written by PUSH and CALL alone: a step that changes any byte fetched one of the two, and the one byte it
changed is the cell just below the old stack pointer (the reading of conflict C4). -/
def Obligations.OnlyPushAndCallWriteMemory : Prop :=
  ∀ (s t : State) (x : Nat), step s = .next t → t.byteAt x ≠ s.byteAt x →
    x + 1 = s.sp.toNat ∧
    ∃ a, fetchInstrWith defaultOpc s = .ok (.push a) ∨ fetchInstrWith defaultOpc s = .ok (.call a)

/-! ### Registers, memory and the stack -/

/-- Every register reads back the last byte written to it, register 7 included, and a write to one register changes no
other (R20); SP is register 7 and nothing else (R7). -/
def Obligations.RegisterReadsBackTheLastWrite : Prop :=
  ∀ (s : State) (i j : Fin 8) (v : Byte),
    (s.setReg i v).reg i = v ∧ (j ≠ i → (s.setReg i v).reg j = s.reg j) ∧ s.sp = s.reg 7

/-- Every address 0 to 255 is plain storage: a write there succeeds, changes that one cell and nothing else, and a read
returns the byte last written and may be repeated; nothing else of the state changes (R40). -/
def Obligations.EveryCellIsPlainStorage : Prop :=
  ∀ (s : State) (a : Nat) (v : Byte), a < 256 → ∃ t, memWrite a v s = .ok t ∧
    memRead a t = .ok v ∧ (∀ b, b ≠ a → memRead b t = memRead b s) ∧ t = { s with mem := t.mem }

/-- An access outside 0 to 255 is an address fault, a read's and a write's alike (00_scope.md and 60_exceptions.md,
decision D3: log 8). -/
def Obligations.AccessOutsideMemoryFaults : Prop :=
  ∀ (s : State) (a : Nat) (v : Byte), 256 ≤ a →
    memRead a s = .error (.addressRange a) ∧ memWrite a v s = .error (.addressRange a)

/-- The stack-pointer steps: SpDec faults at 0 and otherwise lowers x[7] by exactly 1; SpInc faults at 255 and otherwise
raises it by exactly 1; neither wraps, and nothing else changes (43_stack.md section 1, decision D5: log 7). -/
def Obligations.StackPointerStepsNeverWrap : Prop :=
  ∀ s : State,
    (s.sp.toNat = 0 → spDec s = .error (.stackPointerRange 0#8 .down)) ∧
    (s.sp.toNat ≠ 0 → ∃ t, spDec s = .ok t ∧ t.sp.toNat + 1 = s.sp.toNat ∧
      (∀ j : Fin 8, j ≠ 7 → t.reg j = s.reg j) ∧ t = { s with regs := t.regs }) ∧
    (s.sp.toNat = 255 → spInc s = .error (.stackPointerRange 255#8 .up)) ∧
    (s.sp.toNat ≠ 255 → ∃ t, spInc s = .ok t ∧ t.sp.toNat = s.sp.toNat + 1 ∧
      (∀ j : Fin 8, j ≠ 7 → t.reg j = s.reg j) ∧ t = { s with regs := t.regs })

/-- The next fetch sees a pushed byte: after a PUSH that completes, the cell it stored to is what the very next step
decodes there, as opcode or as operand (20_memory.md section 7). -/
def Obligations.NextFetchSeesThePushedByte : Prop :=
  ∀ (opc : OpcodeMap) (a : Byte) (s t : State), s.run = .running → fetchInstrWith opc s = .ok (.push a) →
    stepWith opc s = .next t → t.run = .running → t.pc ≤ 253 → ∀ h : a.toNat < 8,
    ∃ f, fetch t = .ok f ∧
      (t.sp.toNat = t.pc → f.opcode = t.reg ⟨a.toNat, h⟩) ∧
      (t.sp.toNat = t.pc + 1 → f.operandA = t.reg ⟨a.toNat, h⟩) ∧
      (t.sp.toNat = t.pc + 2 → f.operandB = t.reg ⟨a.toNat, h⟩)

/-- A CALL whose push lands on its own operand byte: the index is the return address, so it goes to register pc + 2 when
that is 0 to 7 (register 7 as already decremented) and faults with that byte when it is not (44_call_return.md corner
2, decision D15: log 9). -/
def Obligations.CallThatOverwritesItsOperand : Prop :=
  ∀ (a : Byte) (s : State), s.pc ≤ 253 → s.sp.toNat = s.pc + 2 →
    (∀ _ : s.pc ≤ 4, ∃ t, exec (.call a) s = .next t ∧ t.run = s.run ∧
      t.pc = (s.reg ⟨s.pc + 2, by omega⟩).toNat) ∧
    (s.pc = 5 → ∃ t, exec (.call a) s = .next t ∧ t.run = s.run ∧ t.pc = 6) ∧
    (6 ≤ s.pc → exec (.call a) s = .next { s with run := .faulted (.registerIndex (BitVec.ofNat 8 (s.pc + 2))) })

/-- Push, then pop: the popped register gets the pushed register's value, and the stack pointer comes back, for registers
other than 7 and x[7] not 0 (43_stack.md section 3, with the conditions it infers). -/
def Obligations.PushThenPopRoundTrip : Prop :=
  ∀ (r r' : Byte) (s : State) (hr : r.toNat < 7) (hr' : r'.toNat < 7), s.sp.toNat ≠ 0 →
    ∃ t u, exec (.push r) s = .next t ∧ exec (.pop r') t = .next u ∧
      u.reg ⟨r'.toNat, by omega⟩ = s.reg ⟨r.toNat, by omega⟩ ∧ u.sp = s.sp ∧ u.run = s.run ∧
      u.pc = s.pc + 4 ∧ ∀ j : Fin 8, j.val ≠ r'.toNat → u.reg j = s.reg j

/-- Nested round trip: pushing a list of registers other than 7 and popping the same registers in reverse order completes
and restores the whole register file, with one byte of stack for each (43_stack.md section 3). -/
def Obligations.NestedPushPopRoundTrip : Prop :=
  ∀ (rs : List Byte) (s : State), (∀ r ∈ rs, r.toNat < 7) → rs.length ≤ s.sp.toNat →
    ∃ t, execAll (rs.map .push ++ rs.reverse.map .pop) s = .next t ∧
      t.regs = s.regs ∧ t.flags = s.flags ∧ t.run = s.run ∧ t.out = s.out ∧ t.pc = s.pc + 4 * rs.length ∧
      ∀ x, x + rs.length < s.sp.toNat ∨ s.sp.toNat ≤ x → t.byteAt x = s.byteAt x

/-- Call, then return: whatever runs in between, a RET that finds the stack pointer CALL left and the byte CALL pushed
completes with pc at the instruction following the CALL and the stack pointer back where it was (44_call_return.md,
with the conditions it infers). -/
def Obligations.CallThenRetRoundTrip : Prop :=
  ∀ (a : Byte) (s t u : State), s.pc ≤ 253 → s.run = .running → exec (.call a) s = .next t → t.run = .running →
    u.sp = t.sp → u.byteAt t.sp.toNat = t.byteAt t.sp.toNat →
    ∃ v, exec .ret u = .next v ∧ v.pc = s.pc + 2 ∧ v.sp = s.sp ∧ v.run = u.run

/-- A jump to its own address is an endless loop, not a fault and not a stop: the step is the state itself, every state of
the run is that state, and the run is safe (45_jumps.md, 40_engine_cycle.md on unbounded runs). -/
def Obligations.JumpToSelfRunsForever : Prop :=
  ∀ (a : Byte) (s : State) (h : a.toNat < 8), s.run = .running → fetchInstrWith defaultOpc s = .ok (.jmp a) →
    (s.reg ⟨a.toNat, h⟩).toNat = s.pc → step s = .next s ∧ (∀ t, Steps s t → t = s) ∧ Safe s

/-! ### Reset and the invariant -/

/-- Reset, from any state: registers 0 to 6 are 0 and register 7 is 0xF4, pc is 0, the flags are all false, run is Running,
OUT is empty, the image's bytes stand from address 0 up and every other cell holds the fill, for every image of at most
256 bytes and every fill (10_state.md section 8; the flags' reset value is conflict C1, decision D10: log 3).
`State.reset` reads the same as a reset with no image and the default fill (log 2). -/
def Obligations.ResetEstablishesTheTable : Prop :=
  (∀ (fill : Byte) (image : List Byte) (s : State), image.length ≤ 256 →
    (∀ i : Fin 8, i ≠ 7 → (applyReset fill image s).reg i = 0#8) ∧
    (applyReset fill image s).reg 7 = 0xF4#8 ∧
    (applyReset fill image s).pc = 0 ∧
    (applyReset fill image s).flags = ⟨false, false, false⟩ ∧
    (applyReset fill image s).run = .running ∧
    (applyReset fill image s).out = [] ∧
    (∀ (k : Nat) (h : k < image.length), (applyReset fill image s).byteAt k = image[k]) ∧
    (∀ k, image.length ≤ k → k < 256 → (applyReset fill image s).byteAt k = fill)) ∧
  (∀ s : State, applyReset Config.memFill [] s = State.reset)

/-- The registers at reset: 0 to 6 are 0, 7 is 0xF4; and a register no instruction has written reads as that value, with
no error: PRN of any of them completes and emits it (R23). -/
def Obligations.RegistersAtReset : Prop :=
  (∀ i : Fin 8, i ≠ 7 → State.reset.reg i = 0#8) ∧ State.reset.reg 7 = 0xF4#8 ∧
  ∀ a : Byte, a.toNat < 8 → ∃ t, exec (.prn a) State.reset = .next t ∧ t.run = .running ∧
    t.out = [if a.toNat = 7 then 0xF4#8 else 0#8]

/-- The invariant holds right after reset, whatever the image and the fill, and at `State.reset`. The flags' reset value is
conflict C1, decision D10 (log 3). An image longer than 256 bytes, which decision D18 excludes from a run, is here as
well because the model drops its extra bytes, the model's own choice (log 17). -/
def Obligations.InvariantHoldsAtReset : Prop :=
  Inv State.reset ∧ ∀ (fill : Byte) (image : List Byte) (s : State), Inv (applyReset fill image s)

/-- The invariant is kept by every step from every state that meets it: memory keeps its canonical form, pc stays 0 to
256, at most one flag is true, a halt leaves pc 1 to 254, and a recorded fault is true of the state it froze. The pc
range, the frozen state and the recorded causes are decisions D2, D6 and D8 of the spec (log 4, log 5). -/
def Obligations.InvariantKeptByEveryStep : Prop :=
  ∀ s t : State, Inv s → step s = .next t → Inv t
end

