-- ==== Sys2Proof/Laws/Decode.lean ====
section
/-! SUPPORT. What the opcode lookup answers. -/

namespace Sys2Proof

theorem mem_mnemonics (m : Mnemonic) : m ∈ mnemonics := by
  cases m <;> decide

/-- A byte the lookup finds is the opcode of what it found. -/
theorem lookupOpcode_some {opc : OpcodeMap} {op : Byte} {m : Mnemonic} (h : lookupOpcode opc op = some m) :
    opc m = op := by
  simpa using List.find?_some h

/-- The lookup fails exactly on the bytes that are no opcode (R67, R69). -/
theorem lookupOpcode_none {opc : OpcodeMap} {op : Byte} :
    lookupOpcode opc op = none ↔ ∀ m, opc m ≠ op := by
  simp [lookupOpcode, List.find?_eq_none, mem_mnemonics]

theorem lookupOpcode_opc {opc : OpcodeMap} (hinj : Function.Injective opc) (m : Mnemonic) :
    lookupOpcode opc (opc m) = some m := by
  cases h : lookupOpcode opc (opc m) with
  | none => exact absurd rfl (lookupOpcode_none.mp h m)
  | some m' => exact congrArg some (hinj (lookupOpcode_some h))

theorem defaultOpc_injective : Function.Injective defaultOpc := by
  intro m m' h
  cases m <;> cases m' <;> first | rfl | exact absurd h (by decide)

end Sys2Proof
end

