-- ==== Sys2Proof/Laws/Memory.lean ====
section
/-! SUPPORT. The laws of memory: read over write, and every operation keeps the canonical form. -/

namespace Sys2Proof.Machine

theorem Memory.read_insert (m : Memory) (a b : Nat) (v : Byte) :
    (m.insert a v).read b = if b = a then v else m.read b := by
  induction m with
  | nil => simp [Memory.insert, Memory.read]
  | cons c m ih =>
    obtain ⟨d, w⟩ := c
    simp only [Memory.insert]
    split
    · simp [Memory.read]
    · split <;> simp only [Memory.read, ih] <;> grind

theorem Memory.read_erase (m : Memory) (a b : Nat) :
    (m.erase a).read b = if b = a then Memory.unlisted else m.read b := by
  induction m with
  | nil => simp [Memory.erase, Memory.read]
  | cons c m ih =>
    obtain ⟨d, w⟩ := c
    simp only [Memory.erase]
    split <;> simp only [Memory.read, ih] <;> grind

/-- Read over write, of every memory, canonical or not. -/
theorem Memory.read_write (m : Memory) (a b : Nat) (v : Byte) :
    (m.write a v).read b = if b = a then v else m.read b := by
  unfold Memory.write
  split
  next h => rw [Memory.read_erase, h]
  next => rw [Memory.read_insert]

@[simp] theorem Memory.read_write_same (m : Memory) (a : Nat) (v : Byte) : (m.write a v).read a = v := by
  simp [Memory.read_write]

theorem Memory.read_write_other (m : Memory) (a b : Nat) (v : Byte) (h : b ≠ a) :
    (m.write a v).read b = m.read b := by
  simp [Memory.read_write, h]

/-- The canonical form from an address on holds from every lower one. -/
theorem Memory.wfFrom_mono {lo lo' : Nat} {m : Memory} (hle : lo' ≤ lo) (h : Memory.wfFrom lo m = true) :
    Memory.wfFrom lo' m = true := by
  cases m with
  | nil => rfl
  | cons c m =>
    simp only [Memory.wfFrom, Bool.and_eq_true, decide_eq_true_eq] at h ⊢
    exact ⟨⟨⟨hle.trans h.1.1.1, h.1.1.2⟩, h.1.2⟩, h.2⟩

theorem Memory.wfFrom_insert {lo a : Nat} {v : Byte} (m : Memory) (hlo : lo ≤ a) (ha : a < Config.memSize)
    (hv : v ≠ Memory.unlisted) (h : Memory.wfFrom lo m = true) : Memory.wfFrom lo (m.insert a v) = true := by
  induction m generalizing lo with
  | nil => simp [Memory.insert, Memory.wfFrom, hlo, ha, hv]
  | cons c m ih =>
    obtain ⟨d, w⟩ := c
    simp only [Memory.wfFrom, Bool.and_eq_true, decide_eq_true_eq] at h
    simp only [Memory.insert]
    split
    next hlt =>
      simp only [Memory.wfFrom, Bool.and_eq_true, decide_eq_true_eq]
      exact ⟨⟨⟨hlo, ha⟩, hv⟩, ⟨⟨hlt, h.1.1.2⟩, h.1.2⟩, h.2⟩
    next =>
      split
      next heq =>
        subst heq
        simp only [Memory.wfFrom, Bool.and_eq_true, decide_eq_true_eq]
        exact ⟨⟨⟨hlo, ha⟩, hv⟩, h.2⟩
      next =>
        simp only [Memory.wfFrom, Bool.and_eq_true, decide_eq_true_eq]
        exact ⟨h.1, ih (by omega) h.2⟩

theorem Memory.wfFrom_erase {lo : Nat} (m : Memory) (a : Nat) (h : Memory.wfFrom lo m = true) :
    Memory.wfFrom lo (m.erase a) = true := by
  induction m generalizing lo with
  | nil => rfl
  | cons c m ih =>
    obtain ⟨d, w⟩ := c
    simp only [Memory.wfFrom, Bool.and_eq_true, decide_eq_true_eq] at h
    simp only [Memory.erase]
    split
    next => exact Memory.wfFrom_mono (by omega) (ih h.2)
    next =>
      simp only [Memory.wfFrom, Bool.and_eq_true, decide_eq_true_eq]
      exact ⟨h.1, ih h.2⟩

/-- A store inside the address space keeps the canonical form. -/
theorem Memory.wf_write {m : Memory} {a : Nat} {v : Byte} (ha : a < Config.memSize) (h : m.wf = true) :
    (m.write a v).wf = true := by
  unfold Memory.write
  split
  next => exact Memory.wfFrom_erase m a h
  next hv => exact Memory.wfFrom_insert m (Nat.zero_le a) ha hv h

/-- A load keeps the canonical form. -/
theorem Memory.wf_load {m : Memory} (vs : List Byte) (a : Nat) (h : m.wf = true) : (m.load a vs).wf = true := by
  induction vs generalizing m a with
  | nil => exact h
  | cons v vs ih =>
    simp only [Memory.load]
    apply ih
    split
    next ha => exact Memory.wf_write ha h
    next => exact h

/-- Start memory is in canonical form. -/
theorem startMemory_wf (fill : Byte) (image : List Byte) : (startMemory fill image).wf = true :=
  Memory.wf_load _ 0 rfl

/-- Loading the unlisted value into empty memory lists nothing. -/
theorem Memory.load_unlisted (n a : Nat) : Memory.load [] a (List.replicate n Memory.unlisted) = [] := by
  induction n generalizing a with
  | zero => rfl
  | succ n ih =>
    simp only [List.replicate_succ, Memory.load, Memory.write, if_true, Memory.erase, ite_self]
    exact ih (a + 1)

/-- What a load leaves at an address: the byte it put there, or what was there before. -/
theorem Memory.read_load (m : Memory) (vs : List Byte) (a b : Nat) :
    (m.load a vs).read b =
      if h : a ≤ b ∧ b - a < vs.length ∧ b < Config.memSize then vs[b - a]'h.2.1 else m.read b := by
  induction vs generalizing m a with
  | nil => simp [Memory.load]
  | cons v vs ih =>
    simp only [Memory.load, ih]
    by_cases hb : b = a
    · subst hb
      by_cases hs : b < Config.memSize <;> simp [hs]
    · by_cases hle : a + 1 ≤ b
      · have he : b - a = (b - (a + 1)) + 1 := by omega
        have hg : ∀ h : b - a < (v :: vs).length, (v :: vs)[b - a]'h = vs[b - (a + 1)]'(by
            simp at h; omega) := by
          intro h
          simp [he]
        by_cases hc : b - (a + 1) < vs.length ∧ b < Config.memSize
        · rw [dif_pos ⟨hle, hc⟩, dif_pos ⟨by omega, by simp; omega, hc.2⟩, hg]
        · rw [dif_neg (by tauto), dif_neg (by simp; omega)]
          split
          · exact Memory.read_write_other _ _ _ _ hb
          · rfl
      · rw [dif_neg (by omega), dif_neg (by omega)]
        split
        · exact Memory.read_write_other _ _ _ _ hb
        · rfl

end Sys2Proof.Machine
end

