-- ==== Sys2Proof/Laws/State.lean ====
section
/-! SUPPORT. One lemma per field per update of State, and the register file's read-over-write laws. -/

namespace Sys2Proof.Machine

@[simp] theorem RegFile.get_set_same (r : RegFile) (i : Fin 8) (v : Byte) : (r.set i v).get i = v := by
  fin_cases i <;> rfl

theorem RegFile.get_set_other (r : RegFile) (i j : Fin 8) (v : Byte) (h : j ≠ i) :
    (r.set i v).get j = r.get j := by
  fin_cases i <;> fin_cases j <;> first | rfl | exact absurd rfl h

/-- Registers are told apart by their contents alone. -/
theorem RegFile.ext_get {r r' : RegFile} (h : ∀ i, r.get i = r'.get i) : r = r' := by
  have h0 := h 0
  have h1 := h 1
  have h2 := h 2
  have h3 := h 3
  have h4 := h 4
  have h5 := h 5
  have h6 := h 6
  have h7 := h 7
  cases r
  cases r'
  simp_all [RegFile.get]

section Updates
variable (s : State) (i j : Fin 8) (v : Byte) (n : Nat) (f : Flags) (r : RunState) (m : Memory) (c : FaultCause)

@[simp] theorem State.setReg_regs : (s.setReg i v).regs = s.regs.set i v := rfl
@[simp] theorem State.setReg_pc : (s.setReg i v).pc = s.pc := rfl
@[simp] theorem State.setReg_flags : (s.setReg i v).flags = s.flags := rfl
@[simp] theorem State.setReg_run : (s.setReg i v).run = s.run := rfl
@[simp] theorem State.setReg_mem : (s.setReg i v).mem = s.mem := rfl
@[simp] theorem State.setReg_out : (s.setReg i v).out = s.out := rfl
@[simp] theorem State.setReg_reg_same : (s.setReg i v).reg i = v := RegFile.get_set_same s.regs i v

theorem State.setReg_reg_other (h : j ≠ i) : (s.setReg i v).reg j = s.reg j :=
  RegFile.get_set_other s.regs i j v h

@[simp] theorem State.setReg_byteAt : (s.setReg i v).byteAt n = s.byteAt n := rfl
@[simp] theorem State.setReg_sp : (s.setReg spIndex v).sp = v := RegFile.get_set_same s.regs spIndex v

@[simp] theorem State.setPc_regs : (s.setPc n).regs = s.regs := rfl
@[simp] theorem State.setPc_pc : (s.setPc n).pc = n := rfl
@[simp] theorem State.setPc_flags : (s.setPc n).flags = s.flags := rfl
@[simp] theorem State.setPc_run : (s.setPc n).run = s.run := rfl
@[simp] theorem State.setPc_mem : (s.setPc n).mem = s.mem := rfl
@[simp] theorem State.setPc_out : (s.setPc n).out = s.out := rfl
@[simp] theorem State.setPc_reg : (s.setPc n).reg j = s.reg j := rfl
@[simp] theorem State.setPc_sp : (s.setPc n).sp = s.sp := rfl
@[simp] theorem State.setPc_byteAt (a : Nat) : (s.setPc n).byteAt a = s.byteAt a := rfl

@[simp] theorem State.advance_regs : (s.advance n).regs = s.regs := rfl
@[simp] theorem State.advance_pc : (s.advance n).pc = s.pc + n := rfl
@[simp] theorem State.advance_flags : (s.advance n).flags = s.flags := rfl
@[simp] theorem State.advance_run : (s.advance n).run = s.run := rfl
@[simp] theorem State.advance_mem : (s.advance n).mem = s.mem := rfl
@[simp] theorem State.advance_out : (s.advance n).out = s.out := rfl
@[simp] theorem State.advance_reg : (s.advance n).reg j = s.reg j := rfl
@[simp] theorem State.advance_sp : (s.advance n).sp = s.sp := rfl
@[simp] theorem State.advance_byteAt (a : Nat) : (s.advance n).byteAt a = s.byteAt a := rfl

@[simp] theorem State.setFlags_regs : (s.setFlags f).regs = s.regs := rfl
@[simp] theorem State.setFlags_pc : (s.setFlags f).pc = s.pc := rfl
@[simp] theorem State.setFlags_flags : (s.setFlags f).flags = f := rfl
@[simp] theorem State.setFlags_run : (s.setFlags f).run = s.run := rfl
@[simp] theorem State.setFlags_mem : (s.setFlags f).mem = s.mem := rfl
@[simp] theorem State.setFlags_out : (s.setFlags f).out = s.out := rfl
@[simp] theorem State.setFlags_reg : (s.setFlags f).reg j = s.reg j := rfl
@[simp] theorem State.setFlags_sp : (s.setFlags f).sp = s.sp := rfl
@[simp] theorem State.setFlags_byteAt : (s.setFlags f).byteAt n = s.byteAt n := rfl

@[simp] theorem State.setRun_regs : (s.setRun r).regs = s.regs := rfl
@[simp] theorem State.setRun_pc : (s.setRun r).pc = s.pc := rfl
@[simp] theorem State.setRun_flags : (s.setRun r).flags = s.flags := rfl
@[simp] theorem State.setRun_run : (s.setRun r).run = r := rfl
@[simp] theorem State.setRun_mem : (s.setRun r).mem = s.mem := rfl
@[simp] theorem State.setRun_out : (s.setRun r).out = s.out := rfl
@[simp] theorem State.setRun_reg : (s.setRun r).reg j = s.reg j := rfl
@[simp] theorem State.setRun_sp : (s.setRun r).sp = s.sp := rfl
@[simp] theorem State.setRun_byteAt : (s.setRun r).byteAt n = s.byteAt n := rfl

@[simp] theorem State.emit_regs : (s.emit v).regs = s.regs := rfl
@[simp] theorem State.emit_pc : (s.emit v).pc = s.pc := rfl
@[simp] theorem State.emit_flags : (s.emit v).flags = s.flags := rfl
@[simp] theorem State.emit_run : (s.emit v).run = s.run := rfl
@[simp] theorem State.emit_mem : (s.emit v).mem = s.mem := rfl
@[simp] theorem State.emit_out : (s.emit v).out = s.out ++ [v] := rfl
@[simp] theorem State.emit_reg : (s.emit v).reg j = s.reg j := rfl
@[simp] theorem State.emit_sp : (s.emit v).sp = s.sp := rfl
@[simp] theorem State.emit_byteAt : (s.emit v).byteAt n = s.byteAt n := rfl

@[simp] theorem State.setMem_regs : (s.setMem m).regs = s.regs := rfl
@[simp] theorem State.setMem_pc : (s.setMem m).pc = s.pc := rfl
@[simp] theorem State.setMem_flags : (s.setMem m).flags = s.flags := rfl
@[simp] theorem State.setMem_run : (s.setMem m).run = s.run := rfl
@[simp] theorem State.setMem_mem : (s.setMem m).mem = m := rfl
@[simp] theorem State.setMem_out : (s.setMem m).out = s.out := rfl
@[simp] theorem State.setMem_reg : (s.setMem m).reg j = s.reg j := rfl
@[simp] theorem State.setMem_sp : (s.setMem m).sp = s.sp := rfl
@[simp] theorem State.setMem_byteAt : (s.setMem m).byteAt n = m.read n := rfl

@[simp] theorem takeFault_regs : (takeFault c s).regs = s.regs := rfl
@[simp] theorem takeFault_pc : (takeFault c s).pc = s.pc := rfl
@[simp] theorem takeFault_flags : (takeFault c s).flags = s.flags := rfl
@[simp] theorem takeFault_run : (takeFault c s).run = .faulted c := rfl
@[simp] theorem takeFault_mem : (takeFault c s).mem = s.mem := rfl
@[simp] theorem takeFault_out : (takeFault c s).out = s.out := rfl
@[simp] theorem takeFault_reg : (takeFault c s).reg j = s.reg j := rfl
@[simp] theorem takeFault_sp : (takeFault c s).sp = s.sp := rfl
@[simp] theorem takeFault_byteAt : (takeFault c s).byteAt n = s.byteAt n := rfl

end Updates

end Sys2Proof.Machine
end

