-- ==== Sys2Proof/Laws/Ops.lean ====
section
/-! SUPPORT. One lemma per shared operation that says once what it answers, so that no proof about an instruction unfolds
it. -/

namespace Sys2Proof.Machine

/-! ### Sequencing -/

@[simp] theorem ok_bind {α β : Type} (x : α) (k : α → Except FaultCause β) :
    ((Except.ok x : Except FaultCause α) >>= k) = k x := rfl

@[simp] theorem error_bind {α β : Type} (c : FaultCause) (k : α → Except FaultCause β) :
    ((Except.error c : Except FaultCause α) >>= k) = .error c := rfl

@[simp] theorem pure_eq_ok {α : Type} (x : α) : (pure x : Except FaultCause α) = .ok x := rfl

/-- What a sequence that answers a value went through. -/
theorem bind_eq_ok {α β : Type} {x : Except FaultCause α} {k : α → Except FaultCause β} {b : β}
    (h : (x >>= k) = .ok b) : ∃ a, x = .ok a ∧ k a = .ok b := by
  cases x with
  | error c => cases h
  | ok a => exact ⟨a, rfl, h⟩

/-! ### The end of a step -/

@[simp] theorem completeOrFault_ok (s t : State) : completeOrFault s (.ok t) = .next t := rfl

@[simp] theorem completeOrFault_error (s : State) (c : FaultCause) :
    completeOrFault s (.error c) = .next (takeFault c s) := rfl

/-- A meaning always answers a next state: the handler's, or the state before it with the fault recorded. -/
theorem completeOrFault_cases {s t : State} {r : Except FaultCause State} (h : completeOrFault s r = .next t) :
    r = .ok t ∨ ∃ c, r = .error c ∧ t = takeFault c s := by
  cases r with
  | ok u =>
    simp only [completeOrFault_ok, Host.Outcome.next.injEq] at h
    exact .inl (h ▸ rfl)
  | error c =>
    simp only [completeOrFault_error, Host.Outcome.next.injEq] at h
    exact .inr ⟨c, rfl, h.symm⟩

theorem takeFault_eq (c : FaultCause) (s : State) : takeFault c s = { s with run := .faulted c } := rfl

/-! ### Register operands -/

theorem regIndex_ok {b : Byte} (h : b.toNat < 8) : regIndex b = .ok ⟨b.toNat, h⟩ := dif_pos h

theorem regIndex_error {b : Byte} (h : 8 ≤ b.toNat) : regIndex b = .error (.registerIndex b) :=
  dif_neg (Nat.not_lt.mpr h)

theorem regIndex_cases {b : Byte} {i : Fin 8} (h : regIndex b = .ok i) : b.toNat = i.val := by
  unfold regIndex at h
  split at h
  · cases h
    rfl
  · cases h

theorem jumpTarget_ok {b : Byte} {s : State} (h : b.toNat < 8) :
    jumpTarget b s = .ok (s.reg ⟨b.toNat, h⟩).toNat := by
  simp [jumpTarget, regIndex_ok h]

theorem jumpTarget_error {b : Byte} {s : State} (h : 8 ≤ b.toNat) :
    jumpTarget b s = .error (.registerIndex b) := by
  simp [jumpTarget, regIndex_error h]

/-! ### Memory accesses -/

theorem memRead_ok {a : Nat} {s : State} (h : a < 256) : memRead a s = .ok (s.byteAt a) := if_pos h

theorem memRead_error {a : Nat} {s : State} (h : 256 ≤ a) : memRead a s = .error (.addressRange a) :=
  if_neg (Nat.not_lt.mpr h)

theorem memWrite_ok {a : Nat} {v : Byte} {s : State} (h : a < 256) :
    memWrite a v s = .ok (s.setMem (s.mem.write a v)) := if_pos h

theorem memWrite_error {a : Nat} {v : Byte} {s : State} (h : 256 ≤ a) :
    memWrite a v s = .error (.addressRange a) := if_neg (Nat.not_lt.mpr h)

/-- A stack address is always in range (R48). -/
theorem memRead_byte {b : Byte} {s : State} : memRead b.toNat s = .ok (s.byteAt b.toNat) :=
  memRead_ok b.isLt

theorem memWrite_byte {b v : Byte} {s : State} :
    memWrite b.toNat v s = .ok (s.setMem (s.mem.write b.toNat v)) := memWrite_ok b.isLt

/-! ### Stack-pointer steps -/

theorem spDec_error {s : State} (h : s.sp.toNat = 0) : spDec s = .error (.stackPointerRange s.sp .down) := if_pos h

theorem spDec_ok {s : State} (h : s.sp.toNat ≠ 0) : spDec s = .ok (s.setReg spIndex (s.sp - 1#8)) := if_neg h

theorem spInc_error {s : State} (h : s.sp.toNat = 255) : spInc s = .error (.stackPointerRange s.sp .up) := if_pos h

theorem spInc_ok {s : State} (h : s.sp.toNat ≠ 255) : spInc s = .ok (s.setReg spIndex (s.sp + 1#8)) := if_neg h

theorem toNat_sub_one {b : Byte} (h : b.toNat ≠ 0) : (b - 1#8).toNat = b.toNat - 1 := by
  have := b.isLt
  simp [BitVec.toNat_sub]
  omega

theorem toNat_add_one {b : Byte} (h : b.toNat ≠ 255) : (b + 1#8).toNat = b.toNat + 1 := by
  have := b.isLt
  simp [BitVec.toNat_add]
  omega

/-! ### Fetch -/

theorem fetch_ok {s : State} (h : s.pc ≤ 253) :
    fetch s = .ok ⟨s.byteAt s.pc, s.byteAt (s.pc + 1), s.byteAt (s.pc + 2)⟩ := by
  simp [fetch, memRead_ok (s := s) (a := s.pc) (by omega), memRead_ok (s := s) (a := s.pc + 1) (by omega),
    memRead_ok (s := s) (a := s.pc + 2) (by omega)]

/-- The first fetch address out of range: 256, unless pc itself lies above it. -/
theorem fetch_error {s : State} (h : 254 ≤ s.pc) : fetch s = .error (.addressRange (max s.pc 256)) := by
  have hin : ∀ a, a < 256 → memRead a s = .ok (s.byteAt a) := fun a => memRead_ok
  have hout : ∀ a, 256 ≤ a → memRead a s = .error (.addressRange a) := fun a => memRead_error
  by_cases h1 : s.pc < 256
  · obtain h2 | h2 : s.pc = 254 ∨ s.pc = 255 := by omega
    · simp [fetch, h2, hin, hout]
    · simp [fetch, h2, hin, hout]
  · rw [Nat.max_eq_left (by omega)]
    simp [fetch, hout s.pc (by omega)]

theorem fetchInstrWith_of_le {opc : OpcodeMap} {s : State} (h : s.pc ≤ 253) :
    fetchInstrWith opc s =
      match decodeWith opc (s.byteAt s.pc) (s.byteAt (s.pc + 1)) (s.byteAt (s.pc + 2)) with
      | .ok i => .ok i
      | .error (.invalidInstruction op) => .error (.invalidInstruction op s.pc) := by
  simp only [fetchInstrWith, fetch_ok h, ok_bind] <;> rfl

theorem fetchInstrWith_error {opc : OpcodeMap} {s : State} (h : 254 ≤ s.pc) :
    fetchInstrWith opc s = .error (.addressRange (max s.pc 256)) := by
  simp only [fetchInstrWith, fetch_error h, error_bind]

/-- An instruction is fetched only from address 253 or lower. -/
theorem fetchInstrWith_pc_le {opc : OpcodeMap} {s : State} {i : Instr} (h : fetchInstrWith opc s = .ok i) :
    s.pc ≤ 253 := by
  by_contra hc
  rw [fetchInstrWith_error (by omega)] at h
  cases h

/-! ### Reset -/

theorem startMemory_read_image {fill : Byte} {image : List Byte} {k : Nat} (hlen : image.length ≤ 256)
    (hk : k < image.length) : (startMemory fill image).read k = image[k] := by
  unfold startMemory
  rw [Memory.read_load, dif_pos ⟨Nat.zero_le k, by simp; omega, by simp [Config.memSize]; omega⟩]
  simp [hk]

theorem startMemory_read_fill {fill : Byte} {image : List Byte} {k : Nat} (hlen : image.length ≤ k) (hk : k < 256) :
    (startMemory fill image).read k = fill := by
  unfold startMemory
  rw [Memory.read_load, dif_pos ⟨Nat.zero_le k, by simp [Config.memSize]; omega, by simp [Config.memSize]; omega⟩]
  simp [List.getElem_append_right hlen]

end Sys2Proof.Machine
end

