-- ==== Sys2Proof/Laws/Exec.lean ====
section
/-! SUPPORT. What the operations shared by several handlers do (the ALU, its handler, the jump), and what each handler
answers, one lemma per outcome. -/

namespace Sys2Proof.Machine

theorem alu_add (a b : Fin 8) (s : State) : alu .add a b s = s.setReg a (addBytes (s.reg a) (s.reg b)) := rfl

theorem alu_mul (a b : Fin 8) (s : State) : alu .mul a b s = s.setReg a (mulBytes (s.reg a) (s.reg b)) := rfl

theorem alu_cmp (a b : Fin 8) (s : State) : alu .cmp a b s = s.setFlags (compareFlags (s.reg a) (s.reg b)) := rfl

/-- The ALU leaves pc, memory, OUT and the run state alone. -/
theorem alu_frame (op : AluOp) (a b : Fin 8) (s : State) :
    (alu op a b s).pc = s.pc ∧ (alu op a b s).mem = s.mem ∧ (alu op a b s).out = s.out ∧
      (alu op a b s).run = s.run := by
  cases op <;> exact ⟨rfl, rfl, rfl, rfl⟩

theorem toNat_addBytes (u v : Byte) : (addBytes u v).toNat = (u.toNat + v.toNat) % 256 := by
  simp [addBytes]

theorem toNat_mulBytes (u v : Byte) : (mulBytes u v).toNat = u.toNat * v.toNat % 256 := by
  simp [mulBytes]

theorem compareFlags_eq (u v : Byte) : (compareFlags u v).eq = true ↔ u.toNat = v.toNat := by
  simp [compareFlags, BitVec.toNat_inj]

theorem compareFlags_gt (u v : Byte) : (compareFlags u v).gt = true ↔ u.toNat > v.toNat := by
  simp [compareFlags]

theorem compareFlags_lt (u v : Byte) : (compareFlags u v).lt = true ↔ u.toNat < v.toNat := by
  simp [compareFlags]

theorem handleAlu_ok {op : AluOp} {a b : Byte} {s : State} (ha : a.toNat < 8) (hb : b.toNat < 8) :
    handleAlu op a b s = .ok ((alu op ⟨a.toNat, ha⟩ ⟨b.toNat, hb⟩ s).advance 3) := by
  simp [handleAlu, regIndex_ok ha, regIndex_ok hb]

/-- The first operand out of range is the one reported (R157). -/
theorem handleAlu_error_a {op : AluOp} {a b : Byte} {s : State} (ha : 8 ≤ a.toNat) :
    handleAlu op a b s = .error (.registerIndex a) := by
  simp [handleAlu, regIndex_error ha]

theorem handleAlu_error_b {op : AluOp} {a b : Byte} {s : State} (ha : a.toNat < 8) (hb : 8 ≤ b.toNat) :
    handleAlu op a b s = .error (.registerIndex b) := by
  simp [handleAlu, regIndex_ok ha, regIndex_error hb]

theorem jumpIf_taken {a : Byte} {s : State} (h : a.toNat < 8) :
    jumpIf true a s = .ok (s.setPc (s.reg ⟨a.toNat, h⟩).toNat) := by
  simp [jumpIf, jumpTarget_ok h]

theorem jumpIf_taken_error {a : Byte} {s : State} (h : 8 ≤ a.toNat) :
    jumpIf true a s = .error (.registerIndex a) := by
  simp [jumpIf, jumpTarget_error h]

theorem jumpIf_not_taken (a : Byte) (s : State) : jumpIf false a s = .ok (s.advance 2) := rfl

/-! ### The handlers, one lemma per outcome -/

theorem handleLdi_ok {a imm : Byte} {s : State} (h : a.toNat < 8) :
    handleLdi a imm s = .ok ((s.setReg ⟨a.toNat, h⟩ imm).advance 3) := by
  simp [handleLdi, regIndex_ok h]

theorem handleLdi_error {a imm : Byte} {s : State} (h : 8 ≤ a.toNat) :
    handleLdi a imm s = .error (.registerIndex a) := by
  simp [handleLdi, regIndex_error h]

theorem handlePrn_ok {a : Byte} {s : State} (h : a.toNat < 8) :
    handlePrn a s = .ok ((s.emit (s.reg ⟨a.toNat, h⟩)).advance 2) := by
  simp [handlePrn, regIndex_ok h]

theorem handlePrn_error {a : Byte} {s : State} (h : 8 ≤ a.toNat) : handlePrn a s = .error (.registerIndex a) := by
  simp [handlePrn, regIndex_error h]

/-- The state after the push of a byte: x[7] one lower, the byte in the cell it then names. -/
def State.pushed (s : State) (v : Byte) : State :=
  (s.setReg spIndex (s.sp - 1#8)).setMem (s.mem.write (s.sp.toNat - 1) v)

theorem State.pushed_byteAt (s : State) (v : Byte) (x : Nat) :
    (s.pushed v).byteAt x = if x = s.sp.toNat - 1 then v else s.byteAt x :=
  Memory.read_write s.mem (s.sp.toNat - 1) x v

theorem State.pushed_reg_other (s : State) (v : Byte) {j : Fin 8} (h : j ≠ spIndex) :
    (s.pushed v).reg j = s.reg j := State.setReg_reg_other s spIndex j _ h

theorem State.pushed_sp (s : State) (v : Byte) : (s.pushed v).sp = s.sp - 1#8 := State.setReg_sp s _

/-- A store at the decremented stack pointer is a push. -/
theorem memWrite_after_spDec {s : State} {v : Byte} (h0 : s.sp.toNat ≠ 0) :
    memWrite (s.sp - 1#8).toNat v (s.setReg spIndex (s.sp - 1#8)) = .ok (s.pushed v) := by
  rw [memWrite_byte, toNat_sub_one h0]
  rfl

theorem handlePush_ok {a : Byte} {s : State} (h0 : s.sp.toNat ≠ 0) (h : a.toNat < 8) :
    handlePush a s =
      .ok ((s.pushed ((s.setReg spIndex (s.sp - 1#8)).reg ⟨a.toNat, h⟩)).advance 2) := by
  simp only [handlePush, spDec_ok h0, regIndex_ok h, ok_bind, State.setReg_sp, memWrite_after_spDec h0, pure_eq_ok]

/-- The stack pointer is checked before the operand (R157). -/
theorem handlePush_error_sp {a : Byte} {s : State} (h0 : s.sp.toNat = 0) :
    handlePush a s = .error (.stackPointerRange s.sp .down) := by
  simp [handlePush, spDec_error h0]

theorem handlePush_error_index {a : Byte} {s : State} (h0 : s.sp.toNat ≠ 0) (h : 8 ≤ a.toNat) :
    handlePush a s = .error (.registerIndex a) := by
  simp [handlePush, spDec_ok h0, regIndex_error h]

/-- POP in general: the loaded register decides what the increment sees. -/
theorem handlePop_eq {a : Byte} {s : State} (h : a.toNat < 8) :
    handlePop a s = (spInc (s.setReg ⟨a.toNat, h⟩ (s.byteAt s.sp.toNat)) >>= fun t => .ok (t.advance 2)) := by
  simp only [handlePop, regIndex_ok h, memRead_byte, ok_bind, pure_eq_ok]

/-- The operand is checked before the stack pointer (R157). -/
theorem handlePop_error_index {a : Byte} {s : State} (h : 8 ≤ a.toNat) :
    handlePop a s = .error (.registerIndex a) := by
  simp [handlePop, regIndex_error h]

/-- CALL once its push has gone through: the index byte is read from memory as the push left it. -/
theorem handleCall_eq {s : State} (hpc : s.pc ≤ 253) (h0 : s.sp.toNat ≠ 0) :
    handleCall s =
      (jumpTarget ((s.pushed (returnAddress s.pc)).byteAt (s.pc + 1)) (s.pushed (returnAddress s.pc)) >>=
        fun target => .ok ((s.pushed (returnAddress s.pc)).setPc target)) := by
  have hr : memRead (s.pc + 1) (s.pushed (returnAddress s.pc)) =
      .ok ((s.pushed (returnAddress s.pc)).byteAt (s.pc + 1)) := memRead_ok (by omega)
  simp only [handleCall, spDec_ok h0, ok_bind, State.setReg_sp, memWrite_after_spDec h0, hr, pure_eq_ok]

theorem handleCall_error_sp {s : State} (h0 : s.sp.toNat = 0) :
    handleCall s = .error (.stackPointerRange s.sp .down) := by
  simp [handleCall, spDec_error h0]

theorem toNat_returnAddress {pc : Nat} (h : pc ≤ 253) : (returnAddress pc).toNat = pc + 2 := by
  simp [returnAddress]
  omega

theorem handleRet_ok {s : State} (h : s.sp.toNat ≠ 255) :
    handleRet s = .ok ((s.setReg spIndex (s.sp + 1#8)).setPc (s.byteAt s.sp.toNat).toNat) := by
  simp only [handleRet, memRead_byte, ok_bind, spInc_ok h, pure_eq_ok]

theorem handleRet_error {s : State} (h : s.sp.toNat = 255) :
    handleRet s = .error (.stackPointerRange s.sp .up) := by
  simp only [handleRet, memRead_byte, ok_bind, spInc_error h, error_bind]

end Sys2Proof.Machine
end

