-- ==== Sys2Proof/Laws/PerInstr.lean ====
section
/-! SUPPORT. Statements about every instruction as syntax, one lemma per constructor (LAWS.json). -/

namespace Sys2Proof.Laws

/-- The encoding has the length the mnemonic's format gives, which is 1 plus the number of operand bytes, and begins
with the mnemonic's opcode, whatever OPC is (spec/30_encoding.md R60, R61, R63). -/
def EncodedLength.Statement (i : Instr) : Prop :=
  ∀ opc : OpcodeMap, (encodeWith opc i).length = instrLength (mnemonicOf i) ∧
    instrLength (mnemonicOf i) = 1 + (operandBytes i).length ∧
    (encodeWith opc i).head? = some (opc (mnemonicOf i))

theorem EncodedLength.ldi (a imm : Byte) : EncodedLength.Statement (.ldi a imm) := fun _ => ⟨rfl, rfl, rfl⟩

theorem EncodedLength.prn (a : Byte) : EncodedLength.Statement (.prn a) := fun _ => ⟨rfl, rfl, rfl⟩

theorem EncodedLength.hlt : EncodedLength.Statement .hlt := fun _ => ⟨rfl, rfl, rfl⟩

theorem EncodedLength.add (a b : Byte) : EncodedLength.Statement (.add a b) := fun _ => ⟨rfl, rfl, rfl⟩

theorem EncodedLength.mul (a b : Byte) : EncodedLength.Statement (.mul a b) := fun _ => ⟨rfl, rfl, rfl⟩

theorem EncodedLength.cmp (a b : Byte) : EncodedLength.Statement (.cmp a b) := fun _ => ⟨rfl, rfl, rfl⟩

theorem EncodedLength.push (a : Byte) : EncodedLength.Statement (.push a) := fun _ => ⟨rfl, rfl, rfl⟩

theorem EncodedLength.pop (a : Byte) : EncodedLength.Statement (.pop a) := fun _ => ⟨rfl, rfl, rfl⟩

theorem EncodedLength.call (a : Byte) : EncodedLength.Statement (.call a) := fun _ => ⟨rfl, rfl, rfl⟩

theorem EncodedLength.ret : EncodedLength.Statement .ret := fun _ => ⟨rfl, rfl, rfl⟩

theorem EncodedLength.jmp (a : Byte) : EncodedLength.Statement (.jmp a) := fun _ => ⟨rfl, rfl, rfl⟩

theorem EncodedLength.jeq (a : Byte) : EncodedLength.Statement (.jeq a) := fun _ => ⟨rfl, rfl, rfl⟩

theorem EncodedLength.jne (a : Byte) : EncodedLength.Statement (.jne a) := fun _ => ⟨rfl, rfl, rfl⟩

end Sys2Proof.Laws
end

