-- ==== Sys2Proof/Laws/Step.lean ====
section
/-! SUPPORT. What a step can do, said once: the inversion lemmas that proofs about runs start from. -/

namespace Sys2Proof.Machine

/-- A step that answers a next state began Running, and either took a fault of the fetch or the decode, or ran the
fetched instruction. -/
theorem stepWith_cases {opc : OpcodeMap} {s t : State} (h : stepWith opc s = .next t) :
    s.run = .running ∧
      ((∃ c, fetchInstrWith opc s = .error c ∧ t = takeFault c s) ∨
        ∃ i, fetchInstrWith opc s = .ok i ∧ s.pc ≤ 253 ∧ exec i s = .next t) := by
  unfold stepWith at h
  split at h
  · cases h
  · cases h
  next hr =>
    refine ⟨hr, ?_⟩
    split at h
    next i hi => exact .inr ⟨i, hi, fetchInstrWith_pc_le hi, h⟩
    next c hc =>
      simp only [completeOrFault_error, Host.Outcome.next.injEq] at h
      exact .inl ⟨c, hc, h.symm⟩

theorem stepWith_of_fetched {opc : OpcodeMap} {s : State} {i : Instr} (hr : s.run = .running)
    (hi : fetchInstrWith opc s = .ok i) : stepWith opc s = exec i s := by
  simp [stepWith, hr, hi]

theorem stepWith_of_fetch_error {opc : OpcodeMap} {s : State} {c : FaultCause} (hr : s.run = .running)
    (hc : fetchInstrWith opc s = .error c) : stepWith opc s = .next (takeFault c s) := by
  simp [stepWith, hr, hc]

/-- The handler of an instruction: what `exec` ends with `completeOrFault`. -/
def handler (i : Instr) (s : State) : Except FaultCause State :=
  match i with
  | .ldi a imm => handleLdi a imm s
  | .prn a => handlePrn a s
  | .hlt => handleHlt s
  | .add a b => handleAlu .add a b s
  | .mul a b => handleAlu .mul a b s
  | .cmp a b => handleAlu .cmp a b s
  | .push a => handlePush a s
  | .pop a => handlePop a s
  | .call _ => handleCall s
  | .ret => handleRet s
  | .jmp a => jumpIf true a s
  | .jeq a => jumpIf s.flags.eq a s
  | .jne a => jumpIf (!s.flags.eq) a s

theorem exec_eq_handler (i : Instr) (s : State) : exec i s = completeOrFault s (handler i s) := by
  cases i <;> rfl

/-- `exec` always answers a next state: the handler's, or the state before it with the fault recorded. -/
theorem exec_cases {i : Instr} {s t : State} (h : exec i s = .next t) :
    handler i s = .ok t ∨ ∃ c, handler i s = .error c ∧ t = takeFault c s :=
  completeOrFault_cases (exec_eq_handler i s ▸ h)

/-- What a handler that completes has done, instruction by instruction. -/
def Completes (s t : State) : Instr → Prop
  | .ldi a imm => ∃ ha : a.toNat < 8, t = (s.setReg ⟨a.toNat, ha⟩ imm).advance 3
  | .prn a => ∃ ha : a.toNat < 8, t = (s.emit (s.reg ⟨a.toNat, ha⟩)).advance 2
  | .hlt => t = (s.setRun .halted).advance 1
  | .add a b => ∃ (ha : a.toNat < 8) (hb : b.toNat < 8), t = (alu .add ⟨a.toNat, ha⟩ ⟨b.toNat, hb⟩ s).advance 3
  | .mul a b => ∃ (ha : a.toNat < 8) (hb : b.toNat < 8), t = (alu .mul ⟨a.toNat, ha⟩ ⟨b.toNat, hb⟩ s).advance 3
  | .cmp a b => ∃ (ha : a.toNat < 8) (hb : b.toNat < 8), t = (alu .cmp ⟨a.toNat, ha⟩ ⟨b.toNat, hb⟩ s).advance 3
  | .push a => s.sp.toNat ≠ 0 ∧ ∃ ha : a.toNat < 8,
      t = (s.pushed ((s.setReg spIndex (s.sp - 1#8)).reg ⟨a.toNat, ha⟩)).advance 2
  | .pop a => ∃ ha : a.toNat < 8, (s.setReg ⟨a.toNat, ha⟩ (s.byteAt s.sp.toNat)).sp.toNat ≠ 255 ∧
      t = ((s.setReg ⟨a.toNat, ha⟩ (s.byteAt s.sp.toNat)).setReg spIndex
        ((s.setReg ⟨a.toNat, ha⟩ (s.byteAt s.sp.toNat)).sp + 1#8)).advance 2
  | .call _ => s.sp.toNat ≠ 0 ∧ s.pc + 1 < 256 ∧
      ∃ h8 : ((s.pushed (returnAddress s.pc)).byteAt (s.pc + 1)).toNat < 8,
        t = (s.pushed (returnAddress s.pc)).setPc ((s.pushed (returnAddress s.pc)).reg ⟨_, h8⟩).toNat
  | .ret => s.sp.toNat ≠ 255 ∧ t = (s.setReg spIndex (s.sp + 1#8)).setPc (s.byteAt s.sp.toNat).toNat
  | .jmp a => ∃ ha : a.toNat < 8, t = s.setPc (s.reg ⟨a.toNat, ha⟩).toNat
  | .jeq a => (s.flags.eq = true ∧ ∃ ha : a.toNat < 8, t = s.setPc (s.reg ⟨a.toNat, ha⟩).toNat) ∨
      (s.flags.eq = false ∧ t = s.advance 2)
  | .jne a => (s.flags.eq = false ∧ ∃ ha : a.toNat < 8, t = s.setPc (s.reg ⟨a.toNat, ha⟩).toNat) ∨
      (s.flags.eq = true ∧ t = s.advance 2)

theorem handler_completes {i : Instr} {s t : State} (h : handler i s = .ok t) : Completes s t i := by
  have J : ∀ a, jumpIf true a s = .ok t → ∃ ha : a.toNat < 8, t = s.setPc (s.reg ⟨a.toNat, ha⟩).toNat := by
    intro a h
    by_cases ha : a.toNat < 8
    · rw [jumpIf_taken ha] at h; cases h; exact ⟨ha, rfl⟩
    · rw [jumpIf_taken_error (by omega)] at h; cases h
  have A : ∀ op a b, handleAlu op a b s = .ok t → ∃ (ha : a.toNat < 8) (hb : b.toNat < 8), t = (alu op ⟨a.toNat, ha⟩ ⟨b.toNat, hb⟩ s).advance 3 := by
    intro op a b h
    by_cases ha : a.toNat < 8
    · by_cases hb : b.toNat < 8
      · rw [handleAlu_ok ha hb] at h; cases h; exact ⟨ha, hb, rfl⟩
      · rw [handleAlu_error_b ha (by omega)] at h; cases h
    · rw [handleAlu_error_a (by omega)] at h; cases h
  cases i with
  | ldi a imm =>
    by_cases ha : a.toNat < 8
    · rw [handler, handleLdi_ok ha] at h; cases h; exact ⟨ha, rfl⟩
    · rw [handler, handleLdi_error (by omega)] at h; cases h
  | prn a =>
    by_cases ha : a.toNat < 8
    · rw [handler, handlePrn_ok ha] at h; cases h; exact ⟨ha, rfl⟩
    · rw [handler, handlePrn_error (by omega)] at h; cases h
  | hlt => cases h; rfl
  | add a b => exact A _ _ _ h
  | mul a b => exact A _ _ _ h
  | cmp a b => exact A _ _ _ h
  | push a =>
    by_cases h0 : s.sp.toNat = 0
    · rw [handler, handlePush_error_sp h0] at h; cases h
    by_cases ha : a.toNat < 8
    · rw [handler, handlePush_ok h0 ha] at h; cases h; exact ⟨h0, ha, rfl⟩
    · rw [handler, handlePush_error_index h0 (by omega)] at h; cases h
  | pop a =>
    by_cases ha : a.toNat < 8
    · rw [handler, handlePop_eq ha] at h
      by_cases h0 : (s.setReg ⟨a.toNat, ha⟩ (s.byteAt s.sp.toNat)).sp.toNat = 255
      · rw [spInc_error h0] at h; cases h
      · rw [spInc_ok h0] at h; cases h; exact ⟨ha, h0, rfl⟩
    · rw [handler, handlePop_error_index (by omega)] at h; cases h
  | call a =>
    by_cases h0 : s.sp.toNat = 0
    · rw [handler, handleCall_error_sp h0] at h; cases h
    simp only [handler, handleCall, spDec_ok h0, ok_bind, State.setReg_sp, memWrite_after_spDec h0] at h
    obtain ⟨r, hr, h⟩ := bind_eq_ok h
    by_cases hpc : s.pc + 1 < 256
    · rw [memRead_ok hpc] at hr; cases hr
      by_cases h8 : ((s.pushed (returnAddress s.pc)).byteAt (s.pc + 1)).toNat < 8
      · rw [jumpTarget_ok h8] at h; cases h; exact ⟨h0, hpc, h8, rfl⟩
      · rw [jumpTarget_error (by omega)] at h; cases h
    · rw [memRead_error (by omega)] at hr; cases hr
  | ret =>
    by_cases h0 : s.sp.toNat = 255
    · rw [handler, handleRet_error h0] at h; cases h
    · rw [handler, handleRet_ok h0] at h; cases h; exact ⟨h0, rfl⟩
  | jmp a => exact J a h
  | jeq a =>
    cases he : s.flags.eq
    · rw [handler, he] at h; cases h; exact .inr ⟨he, rfl⟩
    · rw [handler, he] at h; exact .inl ⟨he, J a h⟩
  | jne a =>
    cases he : s.flags.eq
    · rw [handler, he] at h; exact .inl ⟨he, J a h⟩
    · rw [handler, he] at h; cases h; exact .inr ⟨he, rfl⟩

/-- An induction over a run: what holds at its start and is kept by every step holds at its end. -/
theorem Steps.induct {P : State → Prop} {s t : State} (hr : Steps s t) (h0 : P s)
    (hstep : ∀ u v, P u → step u = .next v → P v) : P t := by
  induction hr with
  | refl => exact h0
  | tail _ hs ih => exact hstep _ _ ih hs

end Sys2Proof.Machine
end

