-- ==== Sys2Proof/Tests/Slice0.lean ====
section
/-! SUPPORT. The model's own tests. Expected results come from spec/95_test_vectors.md (the vector's name stands beside
each) and from the encodings of spec/opcode_table.json; none was read off the model. After them, a witness for the
hypotheses of each statement of Certificates/Slice0/Obligations.lean, at boundary values. -/

namespace Sys2Proof.Tests
open Sys2Proof.Machine

/-- A Running state with flags clear: registers 0, 1 and 7, pc, and bytes stored from pc up. -/
def at_ (x0 x1 sp : Byte) (pc : Nat) (bytes : List Byte) : State where
  regs := ⟨x0, x1, 0, 0, 0, 0, 0, sp⟩
  pc := pc
  flags := ⟨false, false, false⟩
  run := .running
  mem := Memory.load [] pc bytes
  out := []

/-- The same with the Equal flag set. -/
def atEq (x0 x1 sp : Byte) (pc : Nat) (bytes : List Byte) : State :=
  { at_ x0 x1 sp pc bytes with flags := ⟨true, false, false⟩ }

/-- One thing about the state an outcome answers. -/
def look {α : Type} (r : Result) (f : State → α) : Option α :=
  match r with
  | .next s => some (f s)
  | .fault _ => none
  | .refused _ => none

/-! ### Decoding: one word of each row, written out from spec/opcode_table.json -/

theorem test_decode_ldi : decode 0b10000010#8 0b00000000#8 0b00001000#8 = .ok (.ldi 0#8 8#8) := by decide
theorem test_decode_prn : decode 0b01000111#8 0b00000111#8 0b00000001#8 = .ok (.prn 7#8) := by decide
theorem test_decode_hlt : decode 0b00000001#8 0b01000111#8 0b00000111#8 = .ok .hlt := by decide
theorem test_decode_add : decode 0b10100000#8 0b00000001#8 0b00000010#8 = .ok (.add 1#8 2#8) := by decide
theorem test_decode_mul : decode 0b10100010#8 0b00000011#8 0b00000100#8 = .ok (.mul 3#8 4#8) := by decide
theorem test_decode_cmp : decode 0b10100111#8 0b00000101#8 0b00000110#8 = .ok (.cmp 5#8 6#8) := by decide
theorem test_decode_push : decode 0b01000101#8 0b00000010#8 0b11111111#8 = .ok (.push 2#8) := by decide
theorem test_decode_pop : decode 0b01000110#8 0b00000110#8 0b11111111#8 = .ok (.pop 6#8) := by decide
theorem test_decode_call : decode 0b01010000#8 0b11001000#8 0b11111111#8 = .ok (.call 200#8) := by decide
theorem test_decode_ret : decode 0b00010001#8 0b11111111#8 0b11111111#8 = .ok .ret := by decide
theorem test_decode_jmp : decode 0b01010100#8 0b00000001#8 0b00000000#8 = .ok (.jmp 1#8) := by decide
theorem test_decode_jeq : decode 0b01010101#8 0b00000100#8 0b00000000#8 = .ok (.jeq 4#8) := by decide
theorem test_decode_jne : decode 0b01010110#8 0b00000011#8 0b00000000#8 = .ok (.jne 3#8) := by decide
/-- V-FETCH 8 and 9: byte 0 and a byte one bit away from LDI are no instructions. -/
theorem test_decode_rejects : decode 0x00#8 0#8 0#8 = .error (.invalidInstruction 0x00#8) ∧
    decode 0x83#8 0#8 0#8 = .error (.invalidInstruction 0x83#8) := by decide
/-- R69: the 13 default opcodes are 13 different bytes, so 243 of the 256 values are no opcode. -/
theorem test_decode_243_invalid : (mnemonics.map defaultOpc).Nodup ∧ 256 - (mnemonics.map defaultOpc).length = 243 := by
  decide
/-- The number form: the second byte is bits 15 to 8, the third bits 23 to 16. -/
theorem test_decodeTableWord : decodeTableWord 24 0x080082 = some (.ldi 0#8 8#8) ∧
    decodeTableWord 8 0x0147 = some (.prn 0#8) := by decide
theorem test_encode_add : encode (.add 0#8 1#8) = [0xA0#8, 0x00#8, 0x01#8] := by decide
/-- The placed word is the one the next step runs, first thing after reset (R181). -/
theorem test_withFetchWord : look (step (State.reset.withFetchWord 16 0x0747)) (·.out) = some [244#8] := by decide

/-! ### WellFormed: an ill-formed term for each check -/

theorem test_wf_accepts : (Instr.ldi 7#8 255#8).wf = true ∧ (Instr.add 7#8 7#8).wf = true := by decide
theorem test_wf_ldi : (Instr.ldi 8#8 0#8).wf = false := by decide
theorem test_wf_prn : (Instr.prn 200#8).wf = false := by decide
theorem test_wf_add_a : (Instr.add 8#8 0#8).wf = false := by decide
theorem test_wf_add_b : (Instr.add 0#8 8#8).wf = false := by decide
theorem test_wf_mul_a : (Instr.mul 9#8 0#8).wf = false := by decide
theorem test_wf_mul_b : (Instr.mul 0#8 9#8).wf = false := by decide
theorem test_wf_cmp_a : (Instr.cmp 8#8 0#8).wf = false := by decide
theorem test_wf_cmp_b : (Instr.cmp 0#8 255#8).wf = false := by decide
theorem test_wf_push : (Instr.push 8#8).wf = false := by decide
theorem test_wf_pop : (Instr.pop 9#8).wf = false := by decide
theorem test_wf_call : (Instr.call 10#8).wf = false := by decide
theorem test_wf_jmp : (Instr.jmp 8#8).wf = false := by decide
theorem test_wf_jeq : (Instr.jeq 9#8).wf = false := by decide
theorem test_wf_jne : (Instr.jne 9#8).wf = false := by decide

/-! ### Vectors of spec/95_test_vectors.md, one step each -/

/-- V-FETCH 1: HLT at 253 completes. -/
theorem test_hlt_at_253 : look (step (at_ 0 0 0xF4#8 253 [0x01#8])) (fun t => (t.run, t.pc)) = some (.halted, 254) := by
  decide
/-- V-FETCH 2: HLT at 254 faults in its fetch. -/
theorem test_hlt_at_254 : look (step (at_ 0 0 0xF4#8 254 [0x01#8])) (·.run) = some (.faulted (.addressRange 256)) := by
  decide
/-- V-FETCH 4: pc 256 faults on the opcode read. -/
theorem test_fetch_256 : look (step (at_ 0 0 0xF4#8 256 [])) (·.run) = some (.faulted (.addressRange 256)) := by decide
/-- V-FETCH 7: an invalid byte is recorded with its address. -/
theorem test_invalid : look (step (at_ 0 0 0xF4#8 5 [0xFF#8, 0x47#8, 0x00#8])) (fun t => (t.run, t.pc)) =
    some (.faulted (.invalidInstruction 0xFF#8 5), 5) := by decide
/-- V-FETCH 10: a halted machine has no step. -/
theorem test_halted_no_step : step { at_ 0 0 0xF4#8 0 [0x01#8] with run := .halted } = .fault .halted := by rfl
/-- V-FETCH 5: pc goes on to 256 without wrapping. -/
theorem test_ldi_to_256 : look (step (at_ 0 0 0xF4#8 253 [0x82#8, 0x00#8, 0x09#8])) (fun t => (t.reg 0, t.pc)) =
    some (9#8, 256) := by decide
/-- V-LDI 6: index 255. -/
theorem test_ldi_index : look (step (at_ 0 0 0xF4#8 0 [0x82#8, 0xFF#8, 0x01#8])) (·.run) =
    some (.faulted (.registerIndex 255#8)) := by decide
/-- V-PRN 1. -/
theorem test_prn : look (step (at_ 72 0 0xF4#8 9 [0x47#8, 0x00#8])) (fun t => (t.out, t.pc)) = some ([72#8], 11) := by
  decide
/-- V-PRN 5: nothing is emitted. -/
theorem test_prn_index : look (step (at_ 0 0 0xF4#8 0 [0x47#8, 0xC8#8])) (fun t => (t.out, t.run)) =
    some ([], .faulted (.registerIndex 200#8)) := by decide
/-- V-ADD 2. -/
theorem test_add_wraps : look (step (at_ 200 100 0xF4#8 0 [0xA0#8, 0x00#8, 0x01#8])) (fun t => (t.reg 0, t.reg 1, t.pc)) =
    some (44#8, 100#8, 3) := by decide
/-- V-ADD 13: the first operand out of range is reported. -/
theorem test_add_index : look (step (at_ 0 0 0xF4#8 0 [0xA0#8, 9#8, 10#8])) (·.run) =
    some (.faulted (.registerIndex 9#8)) := by decide
/-- V-MUL 4. -/
theorem test_mul_wraps : look (step (at_ 200 100 0xF4#8 0 [0xA2#8, 0x00#8, 0x01#8])) (fun t => (t.reg 0, t.reg 1)) =
    some (32#8, 100#8) := by decide
/-- V-MUL 3. -/
theorem test_mul_low_byte : look (step (at_ 255 255 0xF4#8 0 [0xA2#8, 0x00#8, 0x01#8])) (·.reg 0) = some 1#8 := by decide
/-- V-CMP 7: unsigned. -/
theorem test_cmp_unsigned : look (step (at_ 128 127 0xF4#8 0 [0xA7#8, 0x00#8, 0x01#8])) (·.flags) =
    some ⟨false, true, false⟩ := by decide
/-- V-CMP 9: old flags are overwritten. -/
theorem test_cmp_overwrites : look (step (atEq 3 5 0xF4#8 0 [0xA7#8, 0x00#8, 0x01#8])) (·.flags) =
    some ⟨false, false, true⟩ := by decide
/-- V-STK 2: PUSH R7 stores the decremented pointer. -/
theorem test_push_r7 : look (step (at_ 0 0 0xF4#8 0 [0x45#8, 0x07#8])) (fun t => (t.sp, t.byteAt 0xF3)) =
    some (0xF3#8, 0xF3#8) := by decide
/-- V-STK 11: the stack pointer is met before the index. -/
theorem test_push_order : look (step (at_ 0 0 0x00#8 0 [0x45#8, 0x08#8])) (·.run) =
    some (.faulted (.stackPointerRange 0#8 .down)) := by decide
/-- V-STK 6: POP R7 ends one above the loaded byte. -/
theorem test_pop_r7 : look (exec (.pop 7#8) (at_ 0 0 0xF3#8 0xF3 [0x20#8])) (·.sp) = some 0x21#8 := by decide
/-- V-STK 12: the index is met before the stack pointer. -/
theorem test_pop_order : look (step (at_ 0 0 0xFF#8 0 [0x46#8, 0x09#8])) (·.run) =
    some (.faulted (.registerIndex 9#8)) := by decide
/-- V-CALL 7: the push lands on the operand byte, and the re-read index is 18. -/
theorem test_call_reread : look (step (at_ 0 0x40#8 0x12#8 0x10 [0x50#8, 0x01#8])) (fun t => (t.run, t.sp, t.byteAt 0x11)) =
    some (.faulted (.registerIndex 18#8), 0x12#8, 0x01#8) := by decide
/-- V-CALL 4: the largest return address. -/
theorem test_call_largest : look (step (at_ 0 0 0xF4#8 253 [0x50#8, 0x01#8])) (fun t => (t.byteAt 0xF3, t.pc)) =
    some (255#8, 0) := by decide
/-- V-CALL 2. -/
theorem test_ret : look (exec .ret (at_ 0 0 0xF3#8 0xF3 [8#8])) (fun t => (t.pc, t.sp)) = some (8, 0xF4#8) := by decide
/-- V-CALL 10. -/
theorem test_ret_255 : look (step (at_ 0 0 0xFF#8 0 [0x11#8])) (·.run) =
    some (.faulted (.stackPointerRange 255#8 .up)) := by decide
/-- V-JMP 3. -/
theorem test_jmp : look (step (at_ 255 0 0xF4#8 0 [0x54#8, 0x00#8])) (·.pc) = some 255 := by decide
/-- V-JMP 8 and 9: an operand not used cannot fault. -/
theorem test_jeq : look (step (at_ 0 0 0xF4#8 0 [0x55#8, 0x09#8])) (·.pc) = some 2 ∧
    look (step (atEq 0 0 0xF4#8 0 [0x55#8, 0x09#8])) (·.run) = some (.faulted (.registerIndex 9#8)) := by decide
/-- V-JMP 12 and 13: taken with all flags clear; not taken, and no fault, with Equal set. -/
theorem test_jne : look (step (at_ 0x40#8 0 0xF4#8 0 [0x56#8, 0x00#8])) (·.pc) = some 0x40 ∧
    look (step (atEq 0 0 0xF4#8 0 [0x56#8, 0x09#8])) (fun t => (t.pc, t.run)) = some (2, .running) := by decide
/-- P5f: a pushed byte is what the next fetch reads. -/
theorem test_store_then_fetch : look (exec (.push 0#8) (at_ 1 0 0x0B#8 8 [0xFF#8])) (fun t => fetchInstrWith defaultOpc
    { t with pc := 0x0A }) = some (.ok .hlt) := by decide
/-- Reset with an image and a fill: the image below, the fill above (R33). -/
theorem test_reset_image : (applyReset 0x01#8 [0x82#8, 0x00#8, 0x05#8] State.reset).byteAt 2 = 0x05#8 ∧
    (applyReset 0x01#8 [0x82#8, 0x00#8, 0x05#8] State.reset).byteAt 3 = 0x01#8 := by
  simp only [State.byteAt, applyReset, State.setMem_mem]
  rw [startMemory_read_image (k := 2) (by simp) (by simp), startMemory_read_fill (k := 3) (by simp) (by simp)]
  simp

/-! ### Witnesses: a state and operands that meet the hypotheses of each statement -/

theorem witness_DecodeInvertsEncode :
    Function.Injective defaultOpc ∧ encodeWith defaultOpc (.prn 255#8) <+: [0x47#8, 255#8, 0#8] :=
  ⟨defaultOpc_injective, by decide⟩
theorem witness_EncodeInvertsDecode : decodeWith defaultOpc 0x82#8 8#8 255#8 = .ok (.ldi 8#8 255#8) := by decide
theorem witness_DecodeIsExactMatch :
    Function.Injective defaultOpc ∧ defaultOpc .hlt = 0x01#8 ∧ ∀ m, defaultOpc m ≠ 0x00#8 :=
  ⟨defaultOpc_injective, rfl, by intro m; cases m <;> decide⟩
theorem witness_StepRunsTheDecodedInstruction :
    let s := at_ 0 0 0xF4#8 253 [0x82#8, 0x00#8, 0x09#8]
    s.run = .running ∧ s.pc ≤ 253 ∧
      decodeWith defaultOpc (s.byteAt s.pc) (s.byteAt (s.pc + 1)) (s.byteAt (s.pc + 2)) = .ok (.ldi 0#8 9#8) := by decide
theorem witness_OpcodeByteSelectsTheHandler_invalid :
    let s := at_ 0 0 0xF4#8 253 [0xFF#8]
    Function.Injective defaultOpc ∧ s.run = .running ∧ s.pc ≤ 253 ∧ ∀ m, defaultOpc m ≠ s.byteAt s.pc :=
  ⟨defaultOpc_injective, rfl, by decide, by intro m; cases m <;> decide⟩
theorem witness_OpcodeByteSelectsTheHandler_valid :
    let s := at_ 0 0 0xF4#8 253 [0x01#8]
    Function.Injective defaultOpc ∧ s.run = .running ∧ s.pc ≤ 253 ∧ defaultOpc .hlt = s.byteAt s.pc :=
  ⟨defaultOpc_injective, rfl, by decide, by decide⟩
theorem witness_FetchPastTheTopFaults_low :
    let s := at_ 0 0 0xF4#8 254 [0x01#8]
    s.run = .running ∧ 254 ≤ s.pc ∧ s.pc ≤ 256 := by decide
theorem witness_FetchPastTheTopFaults_high :
    let s := at_ 0 0 0xF4#8 256 []
    s.run = .running ∧ 254 ≤ s.pc ∧ s.pc ≤ 256 := by decide
theorem witness_StoppedMachineHasNoStep_halted :
    let s := { State.reset with run := .halted }
    s.run = .halted ∧ s.run ≠ .running ∧ Steps s s :=
  ⟨rfl, by decide, .refl _⟩
theorem witness_StoppedMachineHasNoStep_faulted :
    let s := { State.reset with run := .faulted (.registerIndex 8#8) }
    s.run = .faulted (.registerIndex 8#8) ∧ s.run ≠ .running ∧ Steps s s :=
  ⟨rfl, by decide, .refl _⟩
theorem witness_StepHasOneOfThreeOutcomes : State.reset.run = .running := rfl
theorem witness_FaultsExactlyWhenNotClean :
    State.reset.run = .running ∧ State.reset.pc ≤ 253 ∧ Clean State.reset (.pop 7#8) ∧ ¬ Clean State.reset (.pop 8#8) := by
  refine ⟨rfl, by decide, .inr (by decide), ?_⟩
  rintro (⟨h, -⟩ | ⟨h, -⟩)
  · exact absurd h (by decide)
  · exact absurd h (by decide)
/-- Each clause of `Clean` on both sides of its boundary; every state here is Running with pc at most 253. -/
theorem witness_FaultsExactlyWhenNotClean_operands :
    (Clean State.reset (.ldi 7#8 0#8) ∧ ¬ Clean State.reset (.ldi 8#8 0#8)) ∧
    (Clean State.reset (.prn 7#8) ∧ ¬ Clean State.reset (.prn 8#8)) ∧ Clean State.reset .hlt ∧
    (Clean State.reset (.add 7#8 7#8) ∧ ¬ Clean State.reset (.add 8#8 7#8) ∧ ¬ Clean State.reset (.add 7#8 8#8)) ∧
    (Clean State.reset (.mul 7#8 7#8) ∧ ¬ Clean State.reset (.mul 8#8 7#8) ∧ ¬ Clean State.reset (.mul 7#8 8#8)) ∧
    (Clean State.reset (.cmp 7#8 7#8) ∧ ¬ Clean State.reset (.cmp 8#8 7#8) ∧ ¬ Clean State.reset (.cmp 7#8 8#8)) := by
  simp only [Clean]; decide
theorem witness_FaultsExactlyWhenNotClean_jumps :
    (Clean State.reset (.jmp 7#8) ∧ ¬ Clean State.reset (.jmp 8#8)) ∧
    (Clean (atEq 0 0 0xF4#8 0 []) (.jeq 7#8) ∧ ¬ Clean (atEq 0 0 0xF4#8 0 []) (.jeq 8#8) ∧
      Clean State.reset (.jeq 8#8)) ∧
    (Clean State.reset (.jne 7#8) ∧ ¬ Clean State.reset (.jne 8#8) ∧ Clean (atEq 0 0 0xF4#8 0 []) (.jne 8#8)) := by
  simp only [Clean]; decide
theorem witness_FaultsExactlyWhenNotClean_stack :
    (Clean (at_ 0 0 1#8 0 []) (.push 7#8) ∧ ¬ Clean (at_ 0 0 0#8 0 []) (.push 7#8) ∧
      ¬ Clean (at_ 0 0 1#8 0 []) (.push 8#8)) ∧
    (Clean (at_ 0 0 254#8 0 []) (.pop 6#8) ∧ ¬ Clean (at_ 0 0 255#8 0 []) (.pop 6#8)) ∧
    (Clean (at_ 0 0 255#8 255 [254#8]) (.pop 7#8) ∧ ¬ Clean (at_ 0 0 0xF3#8 0xF3 [255#8]) (.pop 7#8)) ∧
    (Clean (at_ 0 0 254#8 0 []) .ret ∧ ¬ Clean (at_ 0 0 255#8 0 []) .ret) := by
  simp only [Clean]; decide
/-- CALL with its operand byte in memory, 7 then 8; with the push on that byte, return address 7 then 8; with x[7] = 0. -/
theorem witness_FaultsExactlyWhenNotClean_call :
    (Clean (at_ 0 0 1#8 253 [0x50#8, 7#8]) (.call 7#8) ∧ ¬ Clean (at_ 0 0 1#8 253 [0x50#8, 8#8]) (.call 8#8)) ∧
    (Clean (at_ 0 0 7#8 5 [0x50#8, 8#8]) (.call 8#8) ∧ ¬ Clean (at_ 0 0 8#8 6 [0x50#8, 0#8]) (.call 0#8)) ∧
    ¬ Clean (at_ 0 0 0#8 5 [0x50#8, 0#8]) (.call 0#8) := by
  simp only [Clean]; decide
theorem witness_AluSelectorFaultNeverRaised :
    stepWith defaultOpc (at_ 0 0 0xF4#8 0 [0x01#8]) =
      .next { at_ 0 0 0xF4#8 0 [0x01#8] with run := .halted, pc := 1 } := rfl
theorem witness_WellFormedNeverFaultsOnIndex :
    (Instr.ldi 7#8 0#8).wf = true ∧ (∀ a, Instr.ldi 7#8 0#8 ≠ .call a) ∧ State.reset.run = .running ∧
      exec (.ldi 7#8 0#8) State.reset = .next ((State.reset.setReg 7 0#8).setPc 3) :=
  ⟨by decide, by intro a; simp, rfl, rfl⟩
theorem witness_WellFormedNeverFaultsOnIndex_call :
    let s := at_ 0 0 0x02#8 1 [0x50#8, 0x07#8]
    (Instr.call 7#8).wf = true ∧ s.run = .running ∧ s.pc ≤ 253 ∧ s.byteAt (s.pc + 1) = 7#8 ∧
      s.sp.toNat ≠ s.pc + 2 ∧ ∃ t, exec (.call 7#8) s = .next t :=
  ⟨by decide, rfl, by decide, by decide, by decide, _, rfl⟩
/-- The operand ranges of LDI, PRN, JMP: 7 and 8 are the values where the clauses meet. -/
theorem witness_operand_in_range : (7#8 : Byte).toNat < 8 ∧ 8 ≤ (8#8 : Byte).toNat := by decide
/-- The same for ADD, MUL, CMP, second operand included. -/
theorem witness_two_operands :
    ((7#8 : Byte).toNat < 8 ∧ (0#8 : Byte).toNat < 8) ∧ 8 ≤ (8#8 : Byte).toNat ∧
      ((0#8 : Byte).toNat < 8 ∧ 8 ≤ (255#8 : Byte).toNat) := by decide
theorem witness_HltStopsTheRun :
    (at_ 0 0 0xF4#8 254 [0x01#8]).run = .running ∧ (at_ 0 0 0xF4#8 254 [0x01#8]).pc = 254 ∧
    (at_ 0 0 0xF4#8 255 [0x01#8]).run = .running ∧ (at_ 0 0 0xF4#8 255 [0x01#8]).pc = 255 := by decide
theorem witness_PushStoresBelowTheStackPointer :
    ((7#8 : Byte).toNat < 8 ∧ (at_ 0 0 1#8 0 []).sp.toNat ≠ 0) ∧ (at_ 0 0 0#8 0 []).sp.toNat = 0 ∧
      ((at_ 0 0 1#8 0 []).sp.toNat ≠ 0 ∧ 8 ≤ (8#8 : Byte).toNat) := by decide
theorem witness_PopLoadsFromTheStackPointer :
    ((6#8 : Byte).toNat < 7 ∧ (at_ 0 0 254#8 0 []).sp.toNat ≠ 255) ∧
    ((7#8 : Byte).toNat = 7 ∧ ((at_ 0 0 255#8 255 [254#8]).byteAt 255).toNat ≠ 255) ∧
    8 ≤ (8#8 : Byte).toNat ∧
    ((6#8 : Byte).toNat < 7 ∧ (at_ 0 0 255#8 0 []).sp.toNat = 255) ∧
    ((7#8 : Byte).toNat = 7 ∧ ((at_ 0 0 0xF3#8 0xF3 [255#8]).byteAt 0xF3).toNat = 255) := by decide
/-- CALL away from its own operand: the index is the byte in memory, 7 and then 8. -/
theorem witness_CallPushesAndJumps_plain :
    (let s := at_ 0 0 1#8 253 [0x50#8, 7#8]
     s.pc ≤ 253 ∧ s.sp.toNat ≠ s.pc + 2 ∧ s.byteAt (s.pc + 1) = 7#8 ∧ s.sp.toNat ≠ 0 ∧ (7#8 : Byte).toNat < 8) ∧
    (let s := at_ 0 0 1#8 253 [0x50#8, 8#8]
     s.pc ≤ 253 ∧ s.sp.toNat ≠ s.pc + 2 ∧ s.byteAt (s.pc + 1) = 8#8 ∧ s.sp.toNat ≠ 0 ∧ 8 ≤ (8#8 : Byte).toNat) := by decide
/-- CALL on its own operand: the index is the return address, 7 and then 8. -/
theorem witness_CallPushesAndJumps_overwriting :
    (let s := at_ 0 0 7#8 5 [0x50#8, 0#8]
     s.sp.toNat = s.pc + 2 ∧ BitVec.ofNat 8 (s.pc + 2) = 7#8 ∧ s.sp.toNat ≠ 0) ∧
    (let s := at_ 0 0 8#8 6 [0x50#8, 0#8]
     s.sp.toNat = s.pc + 2 ∧ BitVec.ofNat 8 (s.pc + 2) = 8#8 ∧ s.sp.toNat ≠ 0) ∧
    (at_ 0 0 0#8 5 [0x50#8, 0#8]).sp.toNat = 0 := by decide
theorem witness_RetPopsIntoPc :
    (at_ 0 0 254#8 0 []).sp.toNat ≠ 255 ∧ (at_ 0 0 255#8 0 []).sp.toNat = 255 := by decide
theorem witness_JeqJne_flags :
    (atEq 0 0 0xF4#8 0 []).flags.eq = true ∧ State.reset.flags.eq = false ∧ (7#8 : Byte).toNat < 8 ∧
      8 ≤ (8#8 : Byte).toNat := by decide
theorem witness_NewPcFollowsTheTable :
    State.reset.run = .running ∧ exec (.jne 7#8) State.reset = .next (State.reset.setPc 244) ∧
      ∀ c, (State.reset.setPc 244).run ≠ .faulted c :=
  ⟨rfl, rfl, by intro c; simp [State.reset]⟩
/-- Every row of the table has a completed step: JNE taken here and not taken below, JEQ the other way. -/
theorem witness_NewPcFollowsTheTable_rows :
    ∀ i ∈ [Instr.ldi 7#8 255#8, .prn 7#8, .hlt, .add 7#8 0#8, .mul 7#8 0#8, .cmp 7#8 0#8, .push 7#8, .pop 6#8, .call 0#8,
      .ret, .jmp 7#8, .jeq 8#8, .jne 7#8], State.reset.run = .running ∧
      ∃ t, exec i State.reset = .next t ∧ ∀ c, t.run ≠ .faulted c := by
  intro i hi
  fin_cases hi
  all_goals
    first
    | exact ⟨rfl, _, rfl, fun c (h : RunState.running = .faulted c) => nomatch h⟩
    | exact ⟨rfl, _, rfl, fun c (h : RunState.halted = .faulted c) => nomatch h⟩
theorem witness_NewPcFollowsTheTable_conditional :
    let s := atEq 0 0 0xF4#8 253 []
    s.run = .running ∧ exec (.jeq 7#8) s = .next (s.setPc 244) ∧ exec (.jne 8#8) s = .next (s.setPc 255) ∧
      ∀ c, s.run ≠ .faulted c :=
  ⟨rfl, rfl, rfl, fun c (h : RunState.running = .faulted c) => nomatch h⟩
/-- CALL whose push lands on its operand: the index is the return address 7, its register the decremented pointer. -/
theorem witness_NewPcFollowsTheTable_call :
    let s := at_ 0 0 7#8 5 [0x50#8, 0#8]
    s.run = .running ∧ look (exec (.call 0#8) s) (fun t => (t.run, t.pc)) = some (.running, 6) := by decide
theorem witness_AdvanceIsTheEncodedLength :
    State.reset.run = .running ∧ exec (.add 0#8 7#8) State.reset = .next ((State.reset.setReg 0 0xF4#8).setPc 3) ∧
      (∀ c, ((State.reset.setReg 0 0xF4#8).setPc 3).run ≠ .faulted c) ∧
      mnemonicOf (.add 0#8 7#8) ∈ [Mnemonic.ldi, .prn, .hlt, .add, .mul, .cmp, .push, .pop] :=
  ⟨rfl, rfl, by intro c; simp [State.reset], by decide⟩
theorem witness_FlagsWrittenByCmpReadByJumps :
    (∀ a b, Instr.hlt ≠ .cmp a b) ∧ (∀ a, Instr.hlt ≠ .jeq a) ∧ (∀ a, Instr.hlt ≠ .jne a) ∧
      exec .hlt State.reset = .next ((State.reset.setRun .halted).setPc 1) :=
  ⟨by simp, by simp, by simp, rfl⟩
theorem witness_FlagsWrittenByCmpReadByJumps_cmp :
    State.reset.run = .running ∧
      exec (.cmp 0#8 0#8) State.reset = .next ((State.reset.setFlags ⟨true, false, false⟩).setPc 3) ∧
      ∀ c, ((State.reset.setFlags ⟨true, false, false⟩).setPc 3).run ≠ .faulted c :=
  ⟨rfl, rfl, by intro c; simp [State.reset]⟩
theorem witness_GreaterAndLessAreNeverRead :
    let s := at_ 1 0 0xF4#8 0 [0x47#8, 0x00#8]
    let s' := { s with flags := ⟨false, true, false⟩ }
    s ≠ s' ∧ s.forgetGtLt = s'.forgetGtLt ∧ step s = .next { s with out := [1#8], pc := 2 } :=
  ⟨by decide, rfl, rfl⟩
/-- Also for the statements about memory written by a step and about OUT: a step that is one of each. -/
theorem witness_OutIsWriteOnly :
    let s := at_ 1 0 0xF4#8 0 [0x47#8, 0x00#8]
    step s = .next { s with out := [1#8], pc := 2 } := rfl
theorem witness_OutGrowsAlongEveryRun :
    let s := at_ 1 0 0xF4#8 0 [0x47#8, 0x00#8]
    Steps s { s with out := [1#8], pc := 2 } := .tail (.refl _) rfl
theorem witness_OneFlagStaysSet :
    let s := atEq 1 0 0xF4#8 0 [0x47#8, 0x00#8]
    s.flags.oneSet ∧ Steps s { s with out := [1#8], pc := 2 } := ⟨by unfold Flags.oneSet; decide, .tail (.refl _) rfl⟩
theorem witness_RegisterWritersFrame :
    exec (.ldi 7#8 1#8) State.reset = .next ((State.reset.setReg 7 1#8).setPc 3) ∧
    exec (.add 8#8 0#8) State.reset = .next { State.reset with run := .faulted (.registerIndex 8#8) } ∧
    exec (.mul 0#8 7#8) State.reset = .next (State.reset.setPc 3) := ⟨rfl, rfl, rfl⟩
theorem witness_NoRegisterNoMemoryFrame :
    mnemonicOf (.jmp 8#8) ∈ [Mnemonic.prn, .hlt, .cmp, .jmp, .jeq, .jne] ∧
    exec (.jmp 8#8) State.reset = .next { State.reset with run := .faulted (.registerIndex 8#8) } := ⟨by decide, rfl⟩
theorem witness_StoringFrame_push :
    let s := at_ 9 0 1#8 0 []
    exec (.push 0#8) s = .next { s with regs := s.regs.set 7 0#8, mem := [(0, 9#8)], pc := 2 } ∧
      spDec s = .ok (s.setReg 7 0#8) := ⟨rfl, rfl⟩
theorem witness_StoringFrame_call :
    let s := at_ 9 0 0#8 0 []
    exec (.call 0#8) s = .next { s with run := .faulted (.stackPointerRange 0#8 .down) } ∧
      spDec s = .error (.stackPointerRange 0#8 .down) := ⟨rfl, rfl⟩
theorem witness_StackReadersFrame :
    exec (.pop 0#8) State.reset = .next ((State.reset.setReg 7 0xF5#8).setPc 2) ∧
    exec .ret State.reset = .next ((State.reset.setReg 7 0xF5#8).setPc 0) := ⟨rfl, rfl⟩
theorem witness_OnlyPushAndCallWriteMemory :
    let s := at_ 9 0 0xF4#8 0 [0x45#8, 0x00#8]
    ∃ t, step s = .next t ∧ t.byteAt 0xF3 ≠ s.byteAt 0xF3 := ⟨_, rfl, by decide⟩
theorem witness_RegisterReadsBackTheLastWrite : (7 : Fin 8) ≠ 0 := by decide
theorem witness_RegistersAtReset : (7#8 : Byte).toNat < 8 ∧ (6 : Fin 8) ≠ 7 := by decide
theorem witness_addresses : 255 < 256 ∧ 256 ≤ 256 := by decide
theorem witness_StackPointerStepsNeverWrap :
    (at_ 0 0 0#8 0 []).sp.toNat = 0 ∧ (at_ 0 0 1#8 0 []).sp.toNat ≠ 0 ∧ (at_ 0 0 255#8 0 []).sp.toNat = 255 ∧
      (at_ 0 0 254#8 0 []).sp.toNat ≠ 255 := by decide
/-- The pushed byte as the next opcode, as its operand_a, as its operand_b. -/
theorem witness_NextFetchSeesThePushedByte :
    (∃ t, fetchInstrWith defaultOpc (at_ 1 0 0x0B#8 8 [0x45#8, 0x00#8]) = .ok (.push 0#8) ∧
      stepWith defaultOpc (at_ 1 0 0x0B#8 8 [0x45#8, 0x00#8]) = .next t ∧
      t.run = .running ∧ t.pc ≤ 253 ∧ t.sp.toNat = t.pc) ∧
    (∃ t, stepWith defaultOpc (at_ 1 0 0x0C#8 8 [0x45#8, 0x00#8]) = .next t ∧ t.sp.toNat = t.pc + 1) ∧
    (∃ t, stepWith defaultOpc (at_ 1 0 0x0D#8 8 [0x45#8, 0x00#8]) = .next t ∧ t.sp.toNat = t.pc + 2) :=
  ⟨⟨_, rfl, rfl, rfl, by decide, by decide⟩, ⟨_, rfl, by decide⟩, ⟨_, rfl, by decide⟩⟩
theorem witness_CallThatOverwritesItsOperand :
    ((at_ 0 0 6#8 4 []).sp.toNat = 4 + 2) ∧ ((at_ 0 0 7#8 5 []).sp.toNat = 5 + 2) ∧
      ((at_ 0 0 255#8 253 []).sp.toNat = 253 + 2) ∧ ((at_ 0 0 8#8 6 []).sp.toNat = 6 + 2) := by decide
theorem witness_PushThenPopRoundTrip :
    (6#8 : Byte).toNat < 7 ∧ (0#8 : Byte).toNat < 7 ∧ (at_ 0 0 1#8 0 []).sp.toNat ≠ 0 := by decide
theorem witness_NestedPushPopRoundTrip :
    let rs := [6#8, 0#8, (6#8 : Byte)]
    (∀ r ∈ rs, r.toNat < 7) ∧ rs.length ≤ (at_ 0 0 3#8 0 []).sp.toNat := by decide
theorem witness_CallThenRetRoundTrip :
    let s := at_ 0 0x0B#8 0xF4#8 6 [0x50#8, 0x01#8]
    ∃ t, s.pc ≤ 253 ∧ s.run = .running ∧ exec (.call 1#8) s = .next t ∧ t.run = .running ∧
      (t.setPc 0x14).sp = t.sp ∧ (t.setPc 0x14).byteAt t.sp.toNat = t.byteAt t.sp.toNat :=
  ⟨_, by decide, rfl, rfl, rfl, rfl, rfl⟩
theorem witness_JumpToSelfRunsForever :
    let s := at_ 0x40#8 0 0xF4#8 0x40 [0x54#8, 0x00#8]
    (0#8 : Byte).toNat < 8 ∧ s.run = .running ∧ fetchInstrWith defaultOpc s = .ok (.jmp 0#8) ∧ (s.reg 0).toNat = s.pc := by
  decide
theorem witness_ResetEstablishesTheTable :
    (List.replicate 256 (1#8 : Byte)).length ≤ 256 ∧ 255 < (List.replicate 256 (1#8 : Byte)).length ∧
      ([] : List Byte).length ≤ 255 := by
  simp only [List.length_replicate, List.length_nil]; omega
theorem witness_InvariantHoldsAtReset_long : 256 < (List.replicate 257 (1#8 : Byte)).length := by
  simp only [List.length_replicate]; omega
theorem witness_InvariantKeptByEveryStep :
    Inv State.reset ∧ step State.reset = .next { State.reset with run := .faulted (.invalidInstruction 0#8 0) } :=
  ⟨⟨rfl, by decide, .inl rfl, trivial⟩, rfl⟩

end Sys2Proof.Tests
end

section
/-! Proofs about the state: which instructions write and which read the flags (spec/10_state.md section 3, R27), the
register file (R20) and its reset values (R23). -/

namespace Sys2Proof.Machine

/-! ### The flags are written by CMP alone -/

@[simp] theorem State.pushed_flags (s : State) (v : Byte) : (s.pushed v).flags = s.flags := rfl

/-- An instruction other than CMP that completes leaves the flags as they are. -/
theorem Completes.flags_eq {s t : State} {i : Instr} (h : Completes s t i) (hcmp : ∀ a b, i ≠ .cmp a b) :
    t.flags = s.flags := by
  cases i with
  | ldi a imm => obtain ⟨ha, rfl⟩ := h; simp
  | prn a => obtain ⟨ha, rfl⟩ := h; simp
  | hlt => obtain rfl := h; simp
  | add a b => obtain ⟨ha, hb, rfl⟩ := h; simp [alu_add]
  | mul a b => obtain ⟨ha, hb, rfl⟩ := h; simp [alu_mul]
  | cmp a b => exact absurd rfl (hcmp a b)
  | push a => obtain ⟨hsp, ha, rfl⟩ := h; simp
  | pop a => obtain ⟨ha, hsp, rfl⟩ := h; simp
  | call a => obtain ⟨hsp, hpc, hidx, rfl⟩ := h; simp
  | ret => obtain ⟨hsp, rfl⟩ := h; simp
  | jmp a => obtain ⟨ha, rfl⟩ := h; simp
  | jeq a => obtain ⟨he, ha, rfl⟩ | ⟨he, rfl⟩ := h <;> simp
  | jne a => obtain ⟨he, ha, rfl⟩ | ⟨he, rfl⟩ := h <;> simp

/-- No instruction but CMP writes the flags; a fault writes none either. -/
theorem exec_flags_eq {i : Instr} {s t : State} (hcmp : ∀ a b, i ≠ .cmp a b) (h : exec i s = .next t) :
    t.flags = s.flags := by
  obtain hok | ⟨c, -, rfl⟩ := exec_cases h
  · exact (handler_completes hok).flags_eq hcmp
  · exact takeFault_flags s c

/-! ### The flags are read by JEQ and JNE alone

A handler that does not read the flags commutes with setting them: run on `s.setFlags f` it faults as it does on `s`, or
completes in the same state with the flags set to `f`. -/

/-- A sequence whose first part is unaffected by a change of state `g`, and whose rest commutes with it. -/
theorem bind_map_of_same {α : Type} {g : State → State} {x : Except FaultCause α}
    {k k' : α → Except FaultCause State} (hk : ∀ a, k' a = (k a).map g) :
    (x >>= k') = (x >>= k).map g := by
  cases x with
  | error c => rfl
  | ok a => exact hk a

/-- A sequence both of whose parts commute with a change of state `g`. -/
theorem bind_map_of_map {g : State → State} {x x' : Except FaultCause State} {k k' : State → Except FaultCause State}
    (hx : x' = x.map g) (hk : ∀ t, k' (g t) = (k t).map g) : (x' >>= k') = (x >>= k).map g := by
  subst hx
  cases x with
  | error c => rfl
  | ok t => exact hk t

section SetFlags
variable (s : State) (f : Flags)

theorem spDec_setFlags : spDec (s.setFlags f) = (spDec s).map (·.setFlags f) := by
  by_cases h : s.sp.toNat = 0
  · rw [spDec_error h, spDec_error (s := s.setFlags f) h]; rfl
  · rw [spDec_ok h, spDec_ok (s := s.setFlags f) h]; rfl

theorem spInc_setFlags : spInc (s.setFlags f) = (spInc s).map (·.setFlags f) := by
  by_cases h : s.sp.toNat = 255
  · rw [spInc_error h, spInc_error (s := s.setFlags f) h]; rfl
  · rw [spInc_ok h, spInc_ok (s := s.setFlags f) h]; rfl

theorem memWrite_setFlags (a : Nat) (v : Byte) :
    memWrite a v (s.setFlags f) = (memWrite a v s).map (·.setFlags f) := by
  by_cases h : a < 256
  · rw [memWrite_ok h, memWrite_ok h]; rfl
  · rw [memWrite_error (by omega), memWrite_error (by omega)]; rfl

theorem handleLdi_setFlags (a imm : Byte) :
    handleLdi a imm (s.setFlags f) = (handleLdi a imm s).map (·.setFlags f) :=
  bind_map_of_same fun _ => rfl

theorem handlePrn_setFlags (a : Byte) : handlePrn a (s.setFlags f) = (handlePrn a s).map (·.setFlags f) :=
  bind_map_of_same fun _ => rfl

/-- The ALU's handler commutes with setting the flags when its selector is not the one that overwrites them. -/
theorem handleAlu_setFlags {op : AluOp} (hop : op ≠ .cmp) (a b : Byte) :
    handleAlu op a b (s.setFlags f) = (handleAlu op a b s).map (·.setFlags f) :=
  bind_map_of_same fun _ => bind_map_of_same fun _ => by
    cases op with
    | add => rfl
    | mul => rfl
    | cmp => exact absurd rfl hop

/-- CMP overwrites all three flags, so their old values leave no trace. -/
theorem handleAlu_cmp_setFlags (a b : Byte) : handleAlu .cmp a b (s.setFlags f) = handleAlu .cmp a b s := rfl

theorem handlePush_setFlags (a : Byte) : handlePush a (s.setFlags f) = (handlePush a s).map (·.setFlags f) :=
  bind_map_of_map (spDec_setFlags s f) fun t => bind_map_of_same fun i =>
    bind_map_of_map (memWrite_setFlags t f t.sp.toNat (t.reg i)) fun _ => rfl

theorem handlePop_setFlags (a : Byte) : handlePop a (s.setFlags f) = (handlePop a s).map (·.setFlags f) :=
  bind_map_of_same fun d => bind_map_of_same fun v =>
    bind_map_of_map (spInc_setFlags (s.setReg d v) f) fun _ => rfl

theorem handleCall_setFlags : handleCall (s.setFlags f) = (handleCall s).map (·.setFlags f) :=
  bind_map_of_map (spDec_setFlags s f) fun t =>
    bind_map_of_map (memWrite_setFlags t f t.sp.toNat (returnAddress s.pc)) fun _ =>
      bind_map_of_same fun _ => bind_map_of_same fun _ => rfl

theorem handleRet_setFlags : handleRet (s.setFlags f) = (handleRet s).map (·.setFlags f) :=
  bind_map_of_same fun _ => bind_map_of_map (spInc_setFlags s f) fun _ => rfl

/-- The jump itself does not read the flags: JEQ and JNE read them to find out whether it is taken. -/
theorem jumpIf_setFlags (taken : Bool) (a : Byte) :
    jumpIf taken a (s.setFlags f) = (jumpIf taken a s).map (·.setFlags f) := by
  cases taken with
  | true => exact bind_map_of_same fun _ => rfl
  | false => rfl

end SetFlags

/-- Every handler but those of CMP, JEQ and JNE commutes with setting the flags. -/
theorem handler_setFlags {i : Instr} (hcmp : ∀ a b, i ≠ .cmp a b) (hjeq : ∀ a, i ≠ .jeq a) (hjne : ∀ a, i ≠ .jne a)
    (s : State) (f : Flags) : handler i (s.setFlags f) = (handler i s).map (·.setFlags f) := by
  cases i with
  | ldi a imm => exact handleLdi_setFlags s f a imm
  | prn a => exact handlePrn_setFlags s f a
  | hlt => rfl
  | add a b => exact handleAlu_setFlags s f (by decide) a b
  | mul a b => exact handleAlu_setFlags s f (by decide) a b
  | cmp a b => exact absurd rfl (hcmp a b)
  | push a => exact handlePush_setFlags s f a
  | pop a => exact handlePop_setFlags s f a
  | call a => exact handleCall_setFlags s f
  | ret => exact handleRet_setFlags s f
  | jmp a => exact jumpIf_setFlags s f true a
  | jeq a => exact absurd rfl (hjeq a)
  | jne a => exact absurd rfl (hjne a)

/-- A handler that commutes with setting the flags gives an instruction that does, its faults included. -/
theorem exec_setFlags_of_handler {i : Instr} {s t : State} {f : Flags}
    (hi : handler i (s.setFlags f) = (handler i s).map (·.setFlags f)) (h : exec i s = .next t) :
    exec i (s.setFlags f) = .next (t.setFlags f) := by
  rw [exec_eq_handler, hi]
  obtain hok | ⟨c, herr, rfl⟩ := exec_cases h
  · rw [hok]; rfl
  · rw [herr]; rfl

/-- A CMP that completes answers the same state whatever the flags held. -/
theorem exec_cmp_setFlags {a b : Byte} {s t : State} (f : Flags) (h : exec (.cmp a b) s = .next t)
    (hfault : ∀ c, t.run ≠ .faulted c) : exec (.cmp a b) (s.setFlags f) = .next t := by
  obtain hok | ⟨c, -, rfl⟩ := exec_cases h
  · rw [exec_eq_handler, handler, handleAlu_cmp_setFlags, ← handler, hok, completeOrFault_ok]
  · exact absurd (takeFault_run s c) (hfault c)

/-- Settles O28: `exec_flags_eq` for the writers; for the readers, every other handler commutes with setting the flags,
and CMP's forgets them. -/
theorem flagsWrittenByCmpReadByJumps : Obligations.FlagsWrittenByCmpReadByJumps :=
  ⟨fun _ _ _ hcmp h => exec_flags_eq hcmp h,
    fun _ s _ f hcmp hjeq hjne h => exec_setFlags_of_handler (handler_setFlags hcmp hjeq hjne s f) h,
    fun _ _ _ _ f _ h hfault => exec_cmp_setFlags f h hfault⟩

/-! ### Registers -/

/-- Settles O39, by the register file's two read-over-write laws. -/
theorem registerReadsBackTheLastWrite : Obligations.RegisterReadsBackTheLastWrite :=
  fun s i j v => ⟨State.setReg_reg_same s i v, State.setReg_reg_other s i j v, rfl⟩

theorem reset_reg (i : Fin 8) : State.reset.reg i = if i = 7 then 0xF4#8 else 0#8 := by
  fin_cases i <;> rfl

/-- PRN of a register in range completes and appends that register's byte to OUT. -/
theorem exec_prn_ok {a : Byte} {s : State} (h : a.toNat < 8) :
    exec (.prn a) s = .next ((s.emit (s.reg ⟨a.toNat, h⟩)).advance 2) := by
  rw [exec_eq_handler, handler, handlePrn_ok h, completeOrFault_ok]

/-- Settles O50: the eight reset values, and PRN of any of them, which completes from every state. -/
theorem registersAtReset : Obligations.RegistersAtReset := by
  refine ⟨fun i hi => ?_, reset_reg 7, fun a ha => ⟨_, exec_prn_ok ha, rfl, ?_⟩⟩
  · rw [reset_reg, if_neg hi]
  · have h7 : ((⟨a.toNat, ha⟩ : Fin 8) = 7) = (a.toNat = 7) := by simp [Fin.ext_iff]
    simp only [State.advance_out, State.emit_out, reset_reg, h7]
    rfl

end Sys2Proof.Machine
end

section
/-! Proofs about memory: every address below 256 is plain storage (spec/20_memory.md, R40). -/

namespace Sys2Proof.Machine

/-- A read's answer depends on the state through the byte at that address alone, out of range included. -/
theorem memRead_congr {a : Nat} {s t : State} (h : t.byteAt a = s.byteAt a) : memRead a t = memRead a s := by
  unfold memRead
  rw [h]

theorem memRead_write_same {a : Nat} (ha : a < 256) (s : State) (v : Byte) :
    memRead a (s.setMem (s.mem.write a v)) = .ok v := by
  rw [memRead_ok ha, State.setMem_byteAt, Memory.read_write_same]

theorem memRead_write_other {a b : Nat} (hb : b ≠ a) (s : State) (v : Byte) :
    memRead b (s.setMem (s.mem.write a v)) = memRead b s :=
  memRead_congr (Memory.read_write_other s.mem a b v hb)

/-- Settles O40: an in-range write replaces memory alone, and memory obeys the two read-over-write laws. -/
theorem everyCellIsPlainStorage : Obligations.EveryCellIsPlainStorage :=
  fun s _ v ha => ⟨_, memWrite_ok ha, memRead_write_same ha s v, fun _ hb => memRead_write_other hb s v, rfl⟩

end Sys2Proof.Machine
end

section
/-! Proofs about the encoding: the opcode byte alone selects the mnemonic, by exact match against the 13 entries
(spec/30_encoding.md R67, R69). -/

namespace Sys2Proof

@[simp] theorem mnemonicOf_buildInstr (m : Mnemonic) (a b : Byte) : mnemonicOf (buildInstr m a b) = m := by
  cases m <;> rfl

theorem mnemonics_nodup : mnemonics.Nodup := by decide

/-- A mnemonic's opcode decodes to that mnemonic's instruction, whatever the operand bytes. -/
theorem decodeWith_opc {opc : OpcodeMap} (hinj : Function.Injective opc) (m : Mnemonic) (a b : Byte) :
    decodeWith opc (opc m) a b = .ok (buildInstr m a b) := by
  simp only [decodeWith, lookupOpcode_opc hinj]

theorem decodeWith_error_of_not_opcode {opc : OpcodeMap} {op : Byte} (hop : ∀ m, opc m ≠ op) (a b : Byte) :
    decodeWith opc op a b = .error (.invalidInstruction op) := by
  simp only [decodeWith, lookupOpcode_none.mpr hop]

namespace Machine

/-- A fetched byte that is no opcode is reported with its address. -/
theorem fetchInstrWith_error_of_not_opcode {opc : OpcodeMap} {s : State} (hpc : s.pc ≤ 253)
    (hop : ∀ m, opc m ≠ s.byteAt s.pc) :
    fetchInstrWith opc s = .error (.invalidInstruction (s.byteAt s.pc) s.pc) := by
  simp only [fetchInstrWith_of_le hpc, decodeWith_error_of_not_opcode hop]

/-- A Running machine whose fetched byte is no opcode takes that fault and does nothing else. -/
theorem stepWith_of_not_opcode {opc : OpcodeMap} {s : State} (hrun : s.run = .running) (hpc : s.pc ≤ 253)
    (hop : ∀ m, opc m ≠ s.byteAt s.pc) :
    stepWith opc s = .next (takeFault (.invalidInstruction (s.byteAt s.pc) s.pc) s) :=
  stepWith_of_fetch_error hrun (fetchInstrWith_error_of_not_opcode hpc hop)

/-- Settles O4, by the lookup's two outcomes: an opcode is found as its own mnemonic, by injectivity; any other byte is
found nowhere, and the step that fetches it faults. -/
theorem decodeIsExactMatch : Obligations.DecodeIsExactMatch := by
  refine ⟨fun opc hinj op => ⟨?opcode, fun hop => ⟨decodeWith_error_of_not_opcode hop, ?step⟩⟩,
    rfl, mnemonics_nodup, mem_mnemonics⟩
  case opcode =>
    rintro m rfl a b
    exact ⟨buildInstr m a b, decodeWith_opc hinj m a b, mnemonicOf_buildInstr m a b⟩
  case step =>
    rintro s hrun hpc rfl
    exact ⟨_, stepWith_of_not_opcode hrun hpc hop, takeFault_run s _⟩

end Machine

end Sys2Proof
end

section
/-! Proofs about the engine cycle: the opcode byte selects the handler (spec/40_engine_cycle.md R82), and a step of a
Running machine completes Running, completes Halted, or faults (R86). -/

namespace Sys2Proof.Machine

/-! ### The opcode byte selects the handler -/

/-- A fetched byte that is a mnemonic's opcode gives that mnemonic's instruction with the two operand bytes. -/
theorem fetchInstrWith_ok_of_opcode {opc : OpcodeMap} {s : State} {m : Mnemonic} (hinj : Function.Injective opc)
    (hpc : s.pc ≤ 253) (hm : opc m = s.byteAt s.pc) :
    fetchInstrWith opc s = .ok (buildInstr m (s.byteAt (s.pc + 1)) (s.byteAt (s.pc + 2))) := by
  simp only [fetchInstrWith_of_le hpc, ← hm, decodeWith_opc hinj]

/-- Settles O6: a byte that is no opcode is the fault the decoder reports; an opcode fetches its own mnemonic's
instruction, which the step runs. -/
theorem opcodeByteSelectsTheHandler : Obligations.OpcodeByteSelectsTheHandler :=
  fun _ _ hinj hrun hpc => ⟨fun hop => stepWith_of_not_opcode hrun hpc hop,
    fun _ hm => stepWith_of_fetched hrun (fetchInstrWith_ok_of_opcode hinj hpc hm)⟩

/-! ### The three outcomes of a step -/

@[simp] theorem State.pushed_run (s : State) (v : Byte) : (s.pushed v).run = s.run := rfl

/-- An instruction other than HLT that completes leaves the run state as it is. -/
theorem Completes.run_eq {s t : State} {i : Instr} (h : Completes s t i) (hhlt : i ≠ .hlt) : t.run = s.run := by
  cases i with
  | ldi a imm => obtain ⟨ha, rfl⟩ := h; simp
  | prn a => obtain ⟨ha, rfl⟩ := h; simp
  | hlt => exact absurd rfl hhlt
  | add a b => obtain ⟨ha, hb, rfl⟩ := h; simp [alu_add]
  | mul a b => obtain ⟨ha, hb, rfl⟩ := h; simp [alu_mul]
  | cmp a b => obtain ⟨ha, hb, rfl⟩ := h; simp [alu_cmp]
  | push a => obtain ⟨hsp, ha, rfl⟩ := h; simp
  | pop a => obtain ⟨ha, hsp, rfl⟩ := h; simp
  | call a => obtain ⟨hsp, hpc, hidx, rfl⟩ := h; simp
  | ret => obtain ⟨hsp, rfl⟩ := h; simp
  | jmp a => obtain ⟨ha, rfl⟩ := h; simp
  | jeq a => obtain ⟨he, ha, rfl⟩ | ⟨he, rfl⟩ := h <;> simp
  | jne a => obtain ⟨he, ha, rfl⟩ | ⟨he, rfl⟩ := h <;> simp

/-- HLT that completes is Halted. -/
theorem Completes.hlt_run {s t : State} (h : Completes s t .hlt) : t.run = .halted := by
  obtain rfl := h
  simp

/-- An instruction always answers a next state: the handler's, or the state before it with the fault recorded. -/
theorem exec_outcome (i : Instr) (s : State) :
    ∃ t, exec i s = .next t ∧ (Completes s t i ∨ ∃ c, t = takeFault c s) := by
  rw [exec_eq_handler]
  cases h : handler i s with
  | ok t => exact ⟨t, rfl, .inl (handler_completes h)⟩
  | error c => exact ⟨takeFault c s, rfl, .inr ⟨c, rfl⟩⟩

/-- Settles O9: a failed fetch or decode and a failed handler both take the fault; a handler that completes keeps the
run state unless it is HLT's. -/
theorem stepHasOneOfThreeOutcomes : Obligations.StepHasOneOfThreeOutcomes := by
  intro opc s hrun
  cases hf : fetchInstrWith opc s with
  | error c => exact ⟨takeFault c s, stepWith_of_fetch_error hrun hf, .inr (.inr ⟨c, rfl⟩)⟩
  | ok i =>
    obtain ⟨t, hexec, hout⟩ := exec_outcome i s
    refine ⟨t, (stepWith_of_fetched hrun hf).trans hexec, ?_⟩
    obtain hcomp | hfault := hout
    · by_cases hhlt : i = .hlt
      · subst hhlt
        exact .inr (.inl ⟨hcomp.hlt_run, rfl⟩)
      · exact .inl ⟨(hcomp.run_eq hhlt).trans hrun, i, rfl, hhlt⟩
    · exact .inr (.inr hfault)

end Sys2Proof.Machine
end

section
/-! Proofs about LDI, PRN and HLT (spec/41_load_output_halt.md R100 to R102), and the fetch fault that comes before a HLT
at the top of memory. -/

namespace Sys2Proof.Machine

/-! ### From a handler's outcome to the instruction's -/

/-- An instruction whose handler completes answers the handler's state. -/
theorem exec_of_handler_ok {i : Instr} {s t : State} (h : handler i s = .ok t) : exec i s = .next t := by
  rw [exec_eq_handler, h, completeOrFault_ok]

/-- An instruction whose handler faults answers the state before it with the fault recorded. -/
theorem exec_of_handler_error {i : Instr} {s : State} {c : FaultCause} (h : handler i s = .error c) :
    exec i s = .next (takeFault c s) := by
  rw [exec_eq_handler, h, completeOrFault_error]

/-- A write to the register an operand byte names leaves every register with another index alone. -/
theorem State.setReg_reg_of_val_ne {s : State} {n : Nat} {hn : n < 8} {v : Byte} {j : Fin 8} (hj : j.val ≠ n) :
    (s.setReg ⟨n, hn⟩ v).reg j = s.reg j :=
  State.setReg_reg_other s _ j v (Fin.ne_of_val_ne hj)

/-! ### LDI and PRN -/

/-- Settles O13, by the two outcomes of LDI's handler: the state it completes in is one register write and an advance by
3, whose fields the laws of those two updates give. -/
theorem ldiWritesItsImmediate : Obligations.LdiWritesItsImmediate := by
  refine fun a imm s => ⟨fun opc => rfl, fun ha => ⟨_, exec_of_handler_ok (handleLdi_ok ha), ?written, ?others,
    rfl, rfl, rfl, rfl, rfl⟩, fun ha => exec_of_handler_error (handleLdi_error ha)⟩
  case written => rw [State.advance_reg, State.setReg_reg_same]
  case others =>
    intro j hj
    rw [State.advance_reg, State.setReg_reg_of_val_ne hj]

/-- Settles O14, by the two outcomes of PRN's handler: the state it completes in appends the register's byte to OUT and
advances by 2, and those two updates touch no other field. -/
theorem prnEmitsItsRegister : Obligations.PrnEmitsItsRegister :=
  fun _ _ => ⟨fun _ => rfl, fun ha => ⟨_, exec_prn_ok ha, rfl, rfl, rfl, rfl, rfl, rfl⟩,
    fun ha => exec_of_handler_error (handlePrn_error ha)⟩

/-! ### HLT -/

/-- At 254, 255 and 256 the fetch meets address 256 before any instruction is decoded (R62, R81). -/
theorem stepWith_of_fetch_past_top {opc : OpcodeMap} {s : State} (hrun : s.run = .running) (hlo : 254 ≤ s.pc)
    (hhi : s.pc ≤ 256) : stepWith opc s = .next (takeFault (.addressRange 256) s) := by
  have hfetch : fetchInstrWith opc s = .error (.addressRange 256) := by
    rw [fetchInstrWith_error hlo, Nat.max_eq_right hhi]
  exact stepWith_of_fetch_error hrun hfetch

/-- Settles O15: HLT's handler has one outcome, which it reaches from every state; at 254 and 255 a step ends in the fetch
and runs no handler. -/
theorem hltStopsTheRun : Obligations.HltStopsTheRun := by
  refine ⟨fun opc => rfl, fun s => exec_of_handler_ok rfl, fun opc s hrun hpc => ?_⟩
  exact stepWith_of_fetch_past_top hrun (by omega) (by omega)

end Sys2Proof.Machine
end

section
/-! Proofs about the ALU's instructions ADD, MUL and CMP (spec/42_alu.md R114 to R116). -/

namespace Sys2Proof.Machine

/-! ### A bad operand faults -/

/-- An instruction of the ALU reports its first operand above 7 and does nothing else (R157). -/
theorem exec_alu_faults {i : Instr} {op : AluOp} {a b : Byte} {s : State} (hi : handler i s = handleAlu op a b s) :
    (8 ≤ a.toNat → exec i s = .next (takeFault (.registerIndex a) s)) ∧
      (a.toNat < 8 → 8 ≤ b.toNat → exec i s = .next (takeFault (.registerIndex b) s)) :=
  ⟨fun ha => exec_of_handler_error (hi.trans (handleAlu_error_a ha)),
    fun ha hb => exec_of_handler_error (hi.trans (handleAlu_error_b ha hb))⟩

/-! ### ADD and MUL write one register -/

/-- An instruction whose handler completes with one register write and an advance by 3 leaves the written number in that
register, and changes nothing else but pc. -/
theorem exec_of_handler_setReg_advance {i : Instr} {s : State} {n k : Nat} {hn : n < 8} {v : Byte}
    (h : handler i s = .ok ((s.setReg ⟨n, hn⟩ v).advance 3)) (hv : v.toNat = k) :
    ∃ t, exec i s = .next t ∧ (t.reg ⟨n, hn⟩).toNat = k ∧ (∀ j : Fin 8, j.val ≠ n → t.reg j = s.reg j) ∧
      t.pc = s.pc + 3 ∧ t.flags = s.flags ∧ t.run = s.run ∧ t.mem = s.mem ∧ t.out = s.out := by
  refine ⟨_, exec_of_handler_ok h, ?written, ?others, rfl, rfl, rfl, rfl, rfl⟩
  case written => rw [State.advance_reg, State.setReg_reg_same, hv]
  case others =>
    intro j hj
    rw [State.advance_reg, State.setReg_reg_of_val_ne hj]

/-- Settles O16: with both operands in range the handler writes `addBytes`, the sum modulo 256, to its first
register. -/
theorem addWritesTheSumModulo256 : Obligations.AddWritesTheSumModulo256 :=
  fun _ _ _ => ⟨fun _ => rfl,
    fun ha hb => exec_of_handler_setReg_advance (handleAlu_ok ha hb) (toNat_addBytes _ _),
    exec_alu_faults rfl⟩

/-- Settles O17: with both operands in range the handler writes `mulBytes`, the product modulo 256, to its first
register. -/
theorem mulWritesTheProductModulo256 : Obligations.MulWritesTheProductModulo256 :=
  fun _ _ _ => ⟨fun _ => rfl,
    fun ha hb => exec_of_handler_setReg_advance (handleAlu_ok ha hb) (toNat_mulBytes _ _),
    exec_alu_faults rfl⟩

/-! ### CMP sets one flag -/

/-- Exactly one of less, equal and greater holds of two bytes, so CMP sets exactly one flag. -/
theorem compareFlags_oneSet (u v : Byte) : (compareFlags u v).oneSet := by
  obtain hlt | heq | hgt := Nat.lt_trichotomy u.toNat v.toNat
  · have hflags : compareFlags u v = ⟨false, false, true⟩ := by
      simp [compareFlags, ← BitVec.toNat_inj, hlt, hlt.ne, hlt.le]
    rw [hflags]; rfl
  · have hflags : compareFlags u v = ⟨true, false, false⟩ := by
      simp [compareFlags, ← BitVec.toNat_inj, heq]
    rw [hflags]; rfl
  · have hflags : compareFlags u v = ⟨false, true, false⟩ := by
      simp [compareFlags, ← BitVec.toNat_inj, hgt, hgt.ne', hgt.le]
    rw [hflags]; rfl

/-- Settles O18: with both operands in range the handler sets the flags to `compareFlags` of the two registers and
advances by 3, and those two updates touch no other field. -/
theorem cmpSetsExactlyOneFlag : Obligations.CmpSetsExactlyOneFlag :=
  fun _ _ _ => ⟨fun _ => rfl,
    fun ha hb => ⟨_, exec_of_handler_ok (handleAlu_ok ha hb), compareFlags_eq _ _, compareFlags_gt _ _,
      compareFlags_lt _ _, compareFlags_oneSet _ _, rfl, rfl, rfl, rfl, rfl⟩,
    exec_alu_faults rfl⟩

end Sys2Proof.Machine
end

section
/-! Proofs about RET (spec/44_call_return.md R131). -/

namespace Sys2Proof.Machine

/-- Settles O22, by the two outcomes of RET's handler: the state it completes in raises x[7] and sets pc to the byte at
the old x[7]; those two updates touch no other register and no other field. -/
theorem retPopsIntoPc : Obligations.RetPopsIntoPc := by
  refine fun s => ⟨fun opc => rfl, fun hsp => ⟨_, exec_of_handler_ok (handleRet_ok hsp), rfl, ?pointer, ?others,
    rfl, rfl, rfl, rfl⟩, ?fault⟩
  case pointer => rw [State.setPc_sp, State.setReg_sp, toNat_add_one hsp]
  case others =>
    intro j hj
    rw [State.setPc_reg, State.setReg_reg_other s spIndex j _ hj]
  case fault =>
    intro hsp
    have hfull : s.sp = 255#8 := BitVec.eq_of_toNat_eq hsp
    rw [exec_of_handler_error (i := .ret) (handleRet_error hsp), hfull, takeFault_eq]

end Sys2Proof.Machine
end

section
/-! Proofs about JMP, JEQ and JNE (spec/45_jumps.md R140 to R143). -/

namespace Sys2Proof.Machine

/-! ### A jump that is taken, and one that is not -/

/-- An instruction that takes its jump goes to the register its operand names (R140). -/
theorem exec_of_jump_taken {i : Instr} {a : Byte} {s : State} (hi : handler i s = jumpIf true a s)
    (ha : a.toNat < 8) : exec i s = .next (s.setPc (s.reg ⟨a.toNat, ha⟩).toNat) :=
  exec_of_handler_ok (hi.trans (jumpIf_taken ha))

/-- An instruction that takes its jump faults when its operand names no register (R64). -/
theorem exec_of_jump_taken_error {i : Instr} {a : Byte} {s : State} (hi : handler i s = jumpIf true a s)
    (ha : 8 ≤ a.toNat) : exec i s = .next (takeFault (.registerIndex a) s) :=
  exec_of_handler_error (hi.trans (jumpIf_taken_error ha))

/-- An instruction that does not take its jump advances by 2, whatever its operand (R65, R140). -/
theorem exec_of_jump_not_taken {i : Instr} {a : Byte} {s : State} (hi : handler i s = jumpIf false a s) :
    exec i s = .next (s.advance 2) :=
  exec_of_handler_ok (hi.trans (jumpIf_not_taken a s))

/-! ### What decides whether it is taken -/

/-- JEQ is taken exactly when Equal is set (R142). -/
theorem handler_jeq_of_eq {s : State} {e : Bool} (he : s.flags.eq = e) (a : Byte) :
    handler (.jeq a) s = jumpIf e a s := by
  rw [handler, he]

/-- JNE is taken exactly when Equal is clear (R143). -/
theorem handler_jne_of_eq {s : State} {e : Bool} (he : s.flags.eq = e) (a : Byte) :
    handler (.jne a) s = jumpIf (!e) a s := by
  rw [handler, he]

/-! ### The three instructions -/

/-- Settles O23: JMP's handler is the jump that is always taken. -/
theorem jmpGoesToItsRegister : Obligations.JmpGoesToItsRegister :=
  fun _ _ => ⟨fun _ => rfl, fun ha => exec_of_jump_taken rfl ha, fun ha => exec_of_jump_taken_error rfl ha⟩

/-- Settles O24: the jump is taken with Equal set, where the operand decides between target and fault, and not taken with
Equal clear. -/
theorem jeqJumpsWhenEqualIsSet : Obligations.JeqJumpsWhenEqualIsSet :=
  fun a _ => ⟨fun _ => rfl,
    fun ha he => exec_of_jump_taken (handler_jeq_of_eq he a) ha,
    fun ha he => exec_of_jump_taken_error (handler_jeq_of_eq he a) ha,
    fun he => exec_of_jump_not_taken (handler_jeq_of_eq he a)⟩

/-- Settles O25: the jump is taken with Equal clear, where the operand decides between target and fault, and not taken
with Equal set. -/
theorem jneJumpsWhenEqualIsClear : Obligations.JneJumpsWhenEqualIsClear :=
  fun a _ => ⟨fun _ => rfl,
    fun ha he => exec_of_jump_taken (handler_jne_of_eq he a) ha,
    fun ha he => exec_of_jump_taken_error (handler_jne_of_eq he a) ha,
    fun he => exec_of_jump_not_taken (handler_jne_of_eq he a)⟩

end Sys2Proof.Machine
end

section
/-! Proofs about the encoding: decode and encode invert each other, on bytes and on the number form
(spec/30_encoding.md R60 to R63, R67, R68). -/

namespace Sys2Proof

/-! ### Three bytes and the instruction they hold -/

/-- Operand bytes that stand at the front of the two fetched ones give the instruction back. -/
theorem buildInstr_of_operandBytes_prefix {i : Instr} {a b : Byte} (h : operandBytes i <+: [a, b]) :
    buildInstr (mnemonicOf i) a b = i := by
  cases i <;> simp_all [operandBytes, buildInstr, mnemonicOf]

/-- The operands of a built instruction are the first of the bytes it was built from. -/
theorem operandBytes_buildInstr_prefix (m : Mnemonic) (a b : Byte) : operandBytes (buildInstr m a b) <+: [a, b] := by
  cases m <;> simp [operandBytes, buildInstr]

/-- Bytes that begin with an encoding decode to its instruction. -/
theorem decodeWith_of_encodeWith_prefix {opc : OpcodeMap} (hinj : Function.Injective opc) {i : Instr} {op a b : Byte}
    (h : encodeWith opc i <+: [op, a, b]) : decodeWith opc op a b = .ok i := by
  obtain ⟨rfl, hops⟩ := List.cons_prefix_cons.mp h
  rw [decodeWith_opc hinj, buildInstr_of_operandBytes_prefix hops]

/-- What decodes was built from a mnemonic whose opcode is the first byte. -/
theorem decodeWith_ok {opc : OpcodeMap} {op a b : Byte} {i : Instr} (h : decodeWith opc op a b = .ok i) :
    ∃ m, opc m = op ∧ i = buildInstr m a b := by
  unfold decodeWith at h
  split at h
  next m hm =>
    cases h
    exact ⟨m, lookupOpcode_some hm, rfl⟩
  next => cases h

/-- Settles O3: the first byte is the opcode of the mnemonic found, and the instruction was built from the other two. -/
theorem encodeInvertsDecode : Obligations.EncodeInvertsDecode := by
  intro opc op a b i h
  obtain ⟨m, rfl, rfl⟩ := decodeWith_ok h
  rw [encodeWith, mnemonicOf_buildInstr]
  exact List.cons_prefix_cons.mpr ⟨rfl, operandBytes_buildInstr_prefix m a b⟩

/-! ### Bytes as one number, the first byte least significant -/

/-- The number whose base-256 digits are these bytes, the first least significant. -/
def bytesNumber (bs : List Byte) : Nat := bs.foldr (fun v w => v.toNat + 256 * w) 0

theorem bytesNumber_cons (v : Byte) (bs : List Byte) : bytesNumber (v :: bs) = v.toNat + 256 * bytesNumber bs := rfl

theorem bytesNumber_lt (bs : List Byte) : bytesNumber bs < 2 ^ (8 * bs.length) := by
  induction bs with
  | nil => decide
  | cons v bs ih =>
    have hv := v.isLt
    rw [bytesNumber_cons, List.length_cons, Nat.mul_add, Nat.pow_add]
    omega

/-- Dividing by `256 ^ k` leaves byte `k` lowest. -/
theorem ofNat_bytesNumber_div (bs : List Byte) (k : Nat) :
    BitVec.ofNat 8 (bytesNumber bs / 256 ^ k) = bs.getD k 0#8 := by
  induction bs generalizing k with
  | nil => simp [bytesNumber]
  | cons v bs ih =>
    have hv := v.isLt
    cases k with
    | zero =>
      apply BitVec.eq_of_toNat_eq
      simp only [bytesNumber_cons, Nat.pow_zero, Nat.div_one, BitVec.toNat_ofNat, List.getD_cons_zero]
      omega
    | succ k =>
      have hdiv : (v.toNat + 256 * bytesNumber bs) / 256 = bytesNumber bs := by omega
      rw [bytesNumber_cons, Nat.pow_succ', ← Nat.div_div_eq_div_mul, hdiv, ih, List.getD_cons_succ]

/-- Byte `k` of the number is byte `k` of the list, and 0 from its end on. -/
theorem wordByte_bytesNumber (bs : List Byte) (k : Nat) :
    wordByte (8 * bs.length) (bytesNumber bs) k = bs.getD k 0#8 := by
  rw [wordByte, Nat.mod_eq_of_lt (bytesNumber_lt bs), ofNat_bytesNumber_div]

theorem getD_isPrefix_of_length_le_three {bs : List Byte} (h : bs.length ≤ 3) :
    bs <+: [bs.getD 0 0#8, bs.getD 1 0#8, bs.getD 2 0#8] := by
  match bs, h with
  | [], _ => exact List.nil_prefix
  | [x], _ => exact ⟨_, rfl⟩
  | [x, y], _ => exact ⟨_, rfl⟩
  | [x, y, z], _ => exact ⟨[], rfl⟩

/-- The length of an encoding depends on the mnemonic alone (R63). -/
theorem length_encodeWith (opc : OpcodeMap) (i : Instr) : (encodeWith opc i).length = instrLength (mnemonicOf i) := by
  cases i <;> rfl

theorem instrLength_le_three (m : Mnemonic) : instrLength m ≤ 3 := by
  cases m <;> decide

/-- The number form of an encoding decodes to its instruction. -/
theorem decodeTableWord_bytesNumber_encode (i : Instr) :
    decodeTableWord (8 * (encode i).length) (bytesNumber (encode i)) = some i := by
  have hdec : decode ((encode i).getD 0 0#8) ((encode i).getD 1 0#8) ((encode i).getD 2 0#8) = .ok i :=
    decodeWith_of_encodeWith_prefix defaultOpc_injective
      (getD_isPrefix_of_length_le_three ((length_encodeWith defaultOpc i).trans_le (instrLength_le_three _)))
  simp only [decodeTableWord, wordByte_bytesNumber, hdec]

/-- Settles O2: an encoding's first byte is found as its own mnemonic, by injectivity, and the rest are its operands; the
number form is cut into the same three bytes. -/
theorem decodeInvertsEncode : Obligations.DecodeInvertsEncode :=
  ⟨fun _ hinj _ _ _ _ h => decodeWith_of_encodeWith_prefix hinj h, decodeTableWord_bytesNumber_encode⟩

/-! ### The default map -/

/-- Settles O1: thirteen closed words, and the default map's injectivity. -/
theorem tableWordsDecode : Obligations.TableWordsDecode := by
  refine ⟨?_, ?_, ?_, ?_, ?_, ?_, ?_, ?_, ?_, ?_, ?_, ?_, ?_, defaultOpc_injective⟩
  all_goals decide

end Sys2Proof
end

section
/-! Facts about every instruction at once: what one that completes leaves alone, and what one that faults has met. The
proofs about frames, faults, flags, OUT and the invariant below all start from these. -/

namespace Sys2Proof.Machine

@[simp] theorem State.pushed_pc (s : State) (v : Byte) : (s.pushed v).pc = s.pc := rfl

@[simp] theorem State.pushed_out (s : State) (v : Byte) : (s.pushed v).out = s.out := rfl

/-- An instruction answers the state it completes in, or the state before it with the fault its handler raised. -/
theorem exec_completes_or_faults {i : Instr} {s t : State} (h : exec i s = .next t) :
    Completes s t i ∨ ∃ c, handler i s = .error c ∧ t = takeFault c s :=
  (exec_cases h).imp_left handler_completes

/-- A step from a Running state to one that is not Faulted completed. -/
theorem completes_of_not_faulted {i : Instr} {s t : State} (h : exec i s = .next t) (hf : ∀ c, t.run ≠ .faulted c) :
    Completes s t i := by
  obtain hcomp | ⟨c, -, rfl⟩ := exec_completes_or_faults h
  · exact hcomp
  · exact absurd (takeFault_run s c) (hf c)

/-! ### What a completed instruction leaves alone -/

/-- The registers an instruction that completes may write. -/
def WritesReg : Instr → Fin 8 → Prop
  | .ldi a _, j | .add a _, j | .mul a _, j => j.val = a.toNat
  | .pop a, j => j.val = a.toNat ∨ j = spIndex
  | .push _, j | .call _, j | .ret, j => j = spIndex
  | .prn _, _ | .hlt, _ | .cmp _ _, _ | .jmp _, _ | .jeq _, _ | .jne _, _ => False

theorem Completes.reg_eq {s t : State} {i : Instr} {j : Fin 8} (h : Completes s t i) (hj : ¬ WritesReg i j) :
    t.reg j = s.reg j := by
  cases i with
  | ldi => obtain ⟨_, rfl⟩ := h; exact State.setReg_reg_of_val_ne hj
  | add | mul => obtain ⟨_, _, rfl⟩ := h; exact State.setReg_reg_of_val_ne hj
  | push => obtain ⟨_, _, rfl⟩ := h; exact State.setReg_reg_other s _ _ _ hj
  | call => obtain ⟨_, _, _, rfl⟩ := h; exact State.setReg_reg_other s _ _ _ hj
  | ret => obtain ⟨_, rfl⟩ := h; exact State.setReg_reg_other s _ _ _ hj
  | pop a =>
    obtain ⟨_, _, rfl⟩ := h
    obtain ⟨hja, hj7⟩ := not_or.mp hj
    rw [State.advance_reg, State.setReg_reg_other _ _ _ _ hj7, State.setReg_reg_of_val_ne hja]
  | prn | jmp => obtain ⟨_, rfl⟩ := h; rfl
  | hlt => obtain rfl := h; rfl
  | cmp => obtain ⟨_, _, rfl⟩ := h; rfl
  | jeq | jne => obtain ⟨_, _, rfl⟩ | ⟨_, rfl⟩ := h <;> rfl

/-- Memory is stored to by PUSH and CALL alone. -/
theorem Completes.mem_eq {s t : State} {i : Instr} (h : Completes s t i) (hpush : ∀ a, i ≠ .push a)
    (hcall : ∀ a, i ≠ .call a) : t.mem = s.mem := by
  cases i with
  | push a => exact absurd rfl (hpush a)
  | call a => exact absurd rfl (hcall a)
  | ldi | prn | ret | jmp => obtain ⟨_, rfl⟩ := h; rfl
  | add | mul | cmp | pop => obtain ⟨_, _, rfl⟩ := h; rfl
  | hlt => obtain rfl := h; rfl
  | jeq | jne => obtain ⟨_, _, rfl⟩ | ⟨_, rfl⟩ := h <;> rfl

/-- Memory after a completed instruction is the old one, or the old one after the push of a byte. -/
theorem Completes.mem_cases {s t : State} {i : Instr} (h : Completes s t i) :
    t.mem = s.mem ∨ s.sp.toNat ≠ 0 ∧ ∃ v, t.mem = (s.pushed v).mem := by
  by_cases hpush : ∃ a, i = .push a
  · obtain ⟨a, rfl⟩ := hpush
    obtain ⟨hsp, ha, rfl⟩ := h
    exact .inr ⟨hsp, _, rfl⟩
  by_cases hcall : ∃ a, i = .call a
  · obtain ⟨a, rfl⟩ := hcall
    obtain ⟨hsp, hpc, hidx, rfl⟩ := h
    exact .inr ⟨hsp, _, rfl⟩
  exact .inl (h.mem_eq (not_exists.mp hpush) (not_exists.mp hcall))

/-- The one byte a completed instruction may change is the one just below the old stack pointer. -/
theorem Completes.byteAt_eq {s t : State} {i : Instr} {x : Nat} (h : Completes s t i) (hx : x + 1 ≠ s.sp.toNat) :
    t.byteAt x = s.byteAt x := by
  obtain hmem | ⟨hsp, v, hmem⟩ := h.mem_cases
  · exact congrArg (Memory.read · x) hmem
  · calc t.byteAt x = (s.pushed v).byteAt x := congrArg (Memory.read · x) hmem
      _ = s.byteAt x := by rw [State.pushed_byteAt, if_neg (by omega)]

/-- A completed instruction keeps the canonical form of memory. -/
theorem Completes.mem_wf {s t : State} {i : Instr} (h : Completes s t i) (hwf : s.mem.wf = true) :
    t.mem.wf = true := by
  obtain hmem | ⟨-, v, hmem⟩ := h.mem_cases
  · rw [hmem, hwf]
  · rw [hmem]
    exact Memory.wf_write ((Nat.sub_le _ _).trans_lt s.sp.isLt) hwf

/-- OUT is appended to by PRN alone. -/
theorem Completes.out_eq {s t : State} {i : Instr} (h : Completes s t i) (hprn : ∀ a, i ≠ .prn a) :
    t.out = s.out := by
  cases i with
  | prn a => exact absurd rfl (hprn a)
  | ldi | ret | jmp => obtain ⟨_, rfl⟩ := h; rfl
  | add | mul | cmp | push | pop => obtain ⟨_, _, rfl⟩ := h; rfl
  | call => obtain ⟨_, _, _, rfl⟩ := h; rfl
  | hlt => obtain rfl := h; rfl
  | jeq | jne => obtain ⟨_, _, rfl⟩ | ⟨_, rfl⟩ := h <;> rfl

/-- A completed instruction leaves the flags alone or, being CMP, sets exactly one. -/
theorem Completes.flags_cases {s t : State} {i : Instr} (h : Completes s t i) :
    t.flags = s.flags ∨ t.flags.oneSet := by
  by_cases hcmp : ∃ a b, i = .cmp a b
  · obtain ⟨a, b, rfl⟩ := hcmp
    obtain ⟨ha, hb, rfl⟩ := h
    exact .inr (compareFlags_oneSet _ _)
  · exact .inl (h.flags_eq fun a b hi => hcmp ⟨a, b, hi⟩)

/-- From a Running state a completed instruction does not leave the machine Faulted. -/
theorem Completes.not_faulted {s t : State} {i : Instr} (h : Completes s t i) (hrun : s.run = .running)
    (c : FaultCause) : t.run ≠ .faulted c := by
  by_cases hhlt : i = .hlt
  · subst hhlt
    simp [h.hlt_run]
  · simp [h.run_eq hhlt, hrun]

/-! ### What a fault has met -/

/-- The bytes an instruction may use as register indices; CALL's is the one memory holds after its push. -/
def indexBytes (s : State) : Instr → List Byte
  | .ldi a _ | .prn a | .push a | .pop a | .jmp a | .jeq a | .jne a => [a]
  | .add a b | .mul a b | .cmp a b => [a, b]
  | .call _ => [callIndex s]
  | .hlt | .ret => []

/-- What has to be so for the handler of an instruction to raise a fault. -/
inductive Raised (s : State) (i : Instr) : FaultCause → Prop
  /-- A byte used as an index names no register. -/
  | registerIndex {b : Byte} : b ∈ indexBytes s i → 8 ≤ b.toNat → Raised s i (.registerIndex b)
  /-- A push at x[7] = 0. -/
  | pushAtZero : s.sp.toNat = 0 → Raised s i (.stackPointerRange s.sp .down)
  /-- A pop that would step up from 255. -/
  | popAtTop {v : Byte} : v.toNat = 255 → Raised s i (.stackPointerRange v .up)
  /-- CALL's second read of its operand, at a pc no step runs it at (log 15). -/
  | operandAddress : 255 ≤ s.pc → Raised s i (.addressRange (s.pc + 1))

/-- What a sequence that answers a fault went through. -/
theorem bind_eq_error {α β : Type} {x : Except FaultCause α} {k : α → Except FaultCause β} {c : FaultCause}
    (h : (x >>= k) = .error c) : x = .error c ∨ ∃ a, x = .ok a ∧ k a = .error c := by
  cases x with
  | error c' => cases h; exact .inl rfl
  | ok a => exact .inr ⟨a, rfl, h⟩

theorem regIndex_raised {b : Byte} {s : State} {i : Instr} {c : FaultCause} (hb : b ∈ indexBytes s i)
    (h : regIndex b = .error c) : Raised s i c := by
  by_cases h8 : b.toNat < 8
  · rw [regIndex_ok h8] at h; cases h
  · rw [regIndex_error (by omega)] at h; cases h
    exact .registerIndex hb (by omega)

theorem jumpTarget_raised {b : Byte} {s u : State} {i : Instr} {c : FaultCause} (hb : b ∈ indexBytes s i)
    (h : jumpTarget b u = .error c) : Raised s i c := by
  obtain herr | ⟨j, -, hok⟩ := bind_eq_error h
  · exact regIndex_raised hb herr
  · cases hok

theorem jumpIf_raised {b : Byte} {s : State} {i : Instr} {c : FaultCause} {taken : Bool} (hb : b ∈ indexBytes s i)
    (h : jumpIf taken b s = .error c) : Raised s i c := by
  cases taken with
  | false => cases h
  | true =>
    obtain herr | ⟨j, -, hok⟩ := bind_eq_error h
    · exact jumpTarget_raised hb herr
    · cases hok

theorem handleAlu_raised {op : AluOp} {a b : Byte} {s : State} {i : Instr} {c : FaultCause}
    (hi : indexBytes s i = [a, b]) (h : handleAlu op a b s = .error c) : Raised s i c := by
  obtain herr | ⟨ia, -, h⟩ := bind_eq_error h
  · exact regIndex_raised (by simp [hi]) herr
  obtain herr | ⟨ib, -, hok⟩ := bind_eq_error h
  · exact regIndex_raised (by simp [hi]) herr
  · cases hok

theorem spInc_raised {s u : State} {i : Instr} {c : FaultCause} (h : spInc u = .error c) : Raised s i c := by
  by_cases h255 : u.sp.toNat = 255
  · rw [spInc_error h255] at h; cases h
    exact .popAtTop h255
  · rw [spInc_ok h255] at h; cases h

/-- The byte CALL reads back after its push. -/
theorem pushed_returnAddress_byteAt (s : State) :
    (s.pushed (returnAddress s.pc)).byteAt (s.pc + 1) = callIndex s := by
  simp only [State.pushed_byteAt, callIndex, eq_comm]

/-- Why a handler faults. -/
theorem handler_raised {i : Instr} {s : State} {c : FaultCause} (h : handler i s = .error c) : Raised s i c := by
  cases i with
  | ldi a imm =>
    obtain herr | ⟨d, -, hok⟩ := bind_eq_error h
    · exact regIndex_raised (List.mem_singleton_self _) herr
    · cases hok
  | prn a =>
    obtain herr | ⟨d, -, hok⟩ := bind_eq_error h
    · exact regIndex_raised (List.mem_singleton_self _) herr
    · cases hok
  | hlt => cases h
  | add a b => exact handleAlu_raised rfl h
  | mul a b => exact handleAlu_raised rfl h
  | cmp a b => exact handleAlu_raised rfl h
  | push a =>
    by_cases h0 : s.sp.toNat = 0
    · rw [handler, handlePush_error_sp h0] at h; cases h
      exact .pushAtZero h0
    by_cases ha : a.toNat < 8
    · rw [handler, handlePush_ok h0 ha] at h; cases h
    · rw [handler, handlePush_error_index h0 (by omega)] at h; cases h
      exact .registerIndex (List.mem_singleton_self _) (by omega)
  | pop a =>
    by_cases ha : a.toNat < 8
    · rw [handler, handlePop_eq ha] at h
      obtain herr | ⟨t, -, hok⟩ := bind_eq_error h
      · exact spInc_raised herr
      · cases hok
    · rw [handler, handlePop_error_index (by omega)] at h; cases h
      exact .registerIndex (List.mem_singleton_self _) (by omega)
  | call a =>
    by_cases h0 : s.sp.toNat = 0
    · rw [handler, handleCall_error_sp h0] at h; cases h
      exact .pushAtZero h0
    simp only [handler, handleCall, spDec_ok h0, ok_bind, State.setReg_sp, memWrite_after_spDec h0] at h
    by_cases hpc : s.pc + 1 < 256
    · rw [memRead_ok hpc, ok_bind, pushed_returnAddress_byteAt] at h
      obtain herr | ⟨target, -, hok⟩ := bind_eq_error h
      · exact jumpTarget_raised (List.mem_singleton_self _) herr
      · cases hok
    · rw [memRead_error (by omega)] at h; cases h
      exact .operandAddress (by omega)
  | ret =>
    obtain herr | ⟨target, -, h⟩ := bind_eq_error h
    · rw [memRead_byte] at herr; cases herr
    obtain herr | ⟨t, -, hok⟩ := bind_eq_error h
    · exact spInc_raised herr
    · cases hok
  | jmp a => exact jumpIf_raised (taken := true) (List.mem_singleton_self a) h
  | jeq a => exact jumpIf_raised (List.mem_singleton_self a) h
  | jne a => exact jumpIf_raised (List.mem_singleton_self a) h

/-- Why a fetch or a decode faults. -/
theorem fetchInstrWith_error_cases {opc : OpcodeMap} {s : State} {c : FaultCause}
    (h : fetchInstrWith opc s = .error c) :
    254 ≤ s.pc ∧ c = .addressRange (max s.pc 256) ∨
      s.pc ≤ 253 ∧ (∀ m, opc m ≠ s.byteAt s.pc) ∧ c = .invalidInstruction (s.byteAt s.pc) s.pc := by
  by_cases hpc : s.pc ≤ 253
  · cases hl : lookupOpcode opc (s.byteAt s.pc) with
    | some m => simp only [fetchInstrWith_of_le hpc, decodeWith, hl] at h; cases h
    | none =>
      have hop := lookupOpcode_none.mp hl
      rw [fetchInstrWith_error_of_not_opcode hpc hop] at h; cases h
      exact .inr ⟨hpc, hop, rfl⟩
  · rw [fetchInstrWith_error (by omega)] at h; cases h
    exact .inl ⟨by omega, rfl⟩

end Sys2Proof.Machine
end

section
/-! Proofs about the program counter (spec/40_engine_cycle.md section 4): the row of the pc table of every completed
instruction, the advance as the encoding's length, and the range 0 to 256. -/

namespace Sys2Proof.Machine

/-- Settles O26, row by row: each completed instruction ends in the pc update of its row. CALL stores before it jumps, so
the byte it reads back is the one its final state holds. -/
theorem newPcFollowsTheTable : Obligations.NewPcFollowsTheTable := by
  intro i s t _ hexec hf
  have h := completes_of_not_faulted hexec hf
  cases i with
  | ldi | prn => obtain ⟨_, rfl⟩ := h; rfl
  | hlt => obtain rfl := h; rfl
  | add | mul | cmp | push | pop => obtain ⟨_, _, rfl⟩ := h; rfl
  | call a => obtain ⟨hsp, hpc, hidx, rfl⟩ := h; exact ⟨hidx, rfl⟩
  | ret => obtain ⟨hsp, rfl⟩ := h; rfl
  | jmp a => obtain ⟨ha, rfl⟩ := h; exact ⟨ha, rfl⟩
  | jeq a =>
    obtain ⟨he, ha, rfl⟩ | ⟨he, rfl⟩ := h
    · simp [he, ha]
    · simp [he]
  | jne a =>
    obtain ⟨he, ha, rfl⟩ | ⟨he, rfl⟩ := h
    · simp [he, ha]
    · simp [he]

/-- Settles O27: the table's row of each of the eight instructions adds the length of its encoding. -/
theorem advanceIsTheEncodedLength : Obligations.AdvanceIsTheEncodedLength := by
  intro opc i s t hrun hexec hf hm
  rw [length_encodeWith]
  have hrow := newPcFollowsTheTable i s t hrun hexec hf
  cases i with
  | ldi | prn | hlt | add | mul | cmp | push | pop => exact hrow
  | call | ret | jmp | jeq | jne => exact absurd hm (by simp [mnemonicOf])

/-- A completed instruction at pc at most 253 leaves pc at most 256: it adds at most 3, or goes to a byte's address. -/
theorem exec_pc_le {i : Instr} {s t : State} (hrun : s.run = .running) (hexec : exec i s = .next t)
    (hf : ∀ c, t.run ≠ .faulted c) (hpc : s.pc ≤ 253) : t.pc ≤ 256 := by
  have byte_le : ∀ b : Byte, b.toNat ≤ 256 := fun b => b.isLt.le
  have hrow := newPcFollowsTheTable i s t hrun hexec hf
  cases i with
  | ldi | prn | hlt | add | mul | cmp | push | pop => exact hrow.trans_le (by omega)
  | call a => obtain ⟨_, htarget⟩ := hrow; exact htarget.trans_le (byte_le _)
  | ret => exact hrow.trans_le (byte_le _)
  | jmp a => obtain ⟨_, htarget⟩ := hrow; exact htarget.trans_le (byte_le _)
  | jeq a =>
    dsimp only at hrow
    split at hrow
    · obtain ⟨_, htarget⟩ := hrow; exact htarget.trans_le (byte_le _)
    · omega
  | jne a =>
    dsimp only at hrow
    split at hrow
    · obtain ⟨_, htarget⟩ := hrow; exact htarget.trans_le (byte_le _)
    · omega

end Sys2Proof.Machine
end

section
/-! Proofs about the invariant (spec/10_state.md, spec/60_exceptions.md): it holds at reset and every step keeps it; and
about the reset values themselves. -/

namespace Sys2Proof.Machine

/-! ### A recorded fault is true of the state it froze -/

theorem Raised.trueOf {s : State} {i : Instr} {c : FaultCause} (h : Raised s i c) (hpc : s.pc ≤ 253) :
    c.trueOf s := by
  cases h with
  | registerIndex _ h8 => exact ⟨h8, hpc⟩
  | pushAtZero h0 =>
    have hsp : s.sp = 0#8 := BitVec.eq_of_toNat_eq h0
    exact ⟨hsp, hsp, hpc⟩
  | popAtTop h255 => exact ⟨BitVec.eq_of_toNat_eq h255, hpc⟩
  | operandAddress h => omega

theorem fetch_fault_trueOf {s : State} {c : FaultCause} (h : fetchInstrWith defaultOpc s = .error c)
    (hpc : s.pc ≤ 256) : c.trueOf s := by
  obtain ⟨hlo, rfl⟩ | ⟨hhi, hop, rfl⟩ := fetchInstrWith_error_cases h
  · exact ⟨Nat.max_eq_right hpc, hlo⟩
  · exact ⟨rfl, hhi, rfl, hop⟩

/-- Taking a fault keeps the invariant when the fault is true: it changes nothing the cause speaks of. -/
theorem Inv.takeFault {s : State} {c : FaultCause} (h : Inv s) (hc : c.trueOf s) : Inv (takeFault c s) where
  memWf := h.memWf
  pcRange := h.pcRange
  flagsLegal := h.flagsLegal
  runLegal := hc

/-! ### A completed instruction -/

/-- The run state a completed instruction leaves: Running, or, after HLT, Halted with pc one on. -/
theorem Completes.runLegal {s t : State} {i : Instr} (h : Completes s t i) (hrun : s.run = .running)
    (hpc : s.pc ≤ 253) : t.runLegal := by
  by_cases hhlt : i = .hlt
  · subst hhlt
    obtain rfl := h
    exact ⟨Nat.le_add_left 1 s.pc, Nat.add_le_add_right hpc 1⟩
  · have hr : t.run = .running := (h.run_eq hhlt).trans hrun
    simp [State.runLegal, hr]

theorem Completes.flags_legal {s t : State} {i : Instr} (h : Completes s t i) (hs : s.flags.legal) :
    t.flags.legal := by
  obtain heq | hone := h.flags_cases
  · rw [heq]
    exact hs
  · exact .inr hone

/-- An instruction run by a step keeps the invariant, whether it completes or faults. -/
theorem exec_inv {i : Instr} {s t : State} (hs : Inv s) (hrun : s.run = .running) (hpc : s.pc ≤ 253)
    (hexec : exec i s = .next t) : Inv t := by
  obtain hcomp | ⟨c, herr, rfl⟩ := exec_completes_or_faults hexec
  · exact {
      memWf := hcomp.mem_wf hs.memWf
      pcRange := exec_pc_le hrun hexec (hcomp.not_faulted hrun) hpc
      flagsLegal := hcomp.flags_legal hs.flagsLegal
      runLegal := hcomp.runLegal hrun hpc }
  · exact hs.takeFault ((handler_raised herr).trueOf hpc)

/-- Settles O52: a step takes a fault of the fetch, which is true of the state, or runs an instruction from pc at most
253. -/
theorem invariantKeptByEveryStep : Obligations.InvariantKeptByEveryStep := by
  intro s t hs hstep
  obtain ⟨hrun, ⟨c, hfetch, rfl⟩ | ⟨i, -, hpc, hexec⟩⟩ := stepWith_cases hstep
  · exact hs.takeFault (fetch_fault_trueOf hfetch hs.pcRange)
  · exact exec_inv hs hrun hpc hexec

/-! ### Reset -/

/-- Settles O51: reset sets pc, flags and run to legal values, and a load into empty memory is canonical. -/
theorem invariantHoldsAtReset : Obligations.InvariantHoldsAtReset :=
  ⟨⟨rfl, by decide, .inl rfl, trivial⟩, fun fill image _ => ⟨startMemory_wf fill image, Nat.zero_le 256, .inl rfl, trivial⟩⟩

/-- Start memory with no image and the default fill lists nothing. -/
theorem startMemory_memFill_nil : startMemory Config.memFill [] = [] :=
  Memory.load_unlisted _ 0

/-- Settles O49: a reset replaces the memory of `State.reset`, so its other fields are those; start memory reads as the
image, then as the fill. -/
theorem resetEstablishesTheTable : Obligations.ResetEstablishesTheTable := by
  refine ⟨fun fill image s hlen => ⟨fun i hi => ?low, reset_reg 7, rfl, rfl, rfl, rfl,
    fun k hk => startMemory_read_image hlen hk, fun k hlo hhi => startMemory_read_fill hlo hhi⟩, fun s => ?default⟩
  case low => exact (reset_reg i).trans (if_neg hi)
  case default =>
    rw [applyReset, startMemory_memFill_nil]
    rfl

end Sys2Proof.Machine
end

section
/-! Proofs about the flags along a run (spec/10_state.md section 3): Greater-Than and Less-Than are read by nothing, and
once a CMP has set the flags exactly one stays set. -/

namespace Sys2Proof.Machine

/-- The fetch reads pc and memory alone. -/
theorem fetchInstrWith_setFlags (opc : OpcodeMap) (s : State) (f : Flags) :
    fetchInstrWith opc (s.setFlags f) = fetchInstrWith opc s := rfl

/-- A change of the flags that keeps Equal changes nothing an instruction does, but for the flags it leaves: those keep
the Equal they would have had. -/
theorem exec_setFlags_of_eq {i : Instr} {s t : State} {f : Flags} (hf : f.eq = s.flags.eq)
    (h : exec i s = .next t) : ∃ f', f'.eq = t.flags.eq ∧ exec i (s.setFlags f) = .next (t.setFlags f') := by
  have kept (hcmp : ∀ a b, i ≠ .cmp a b) (hi : handler i (s.setFlags f) = (handler i s).map (·.setFlags f)) :
      ∃ f', f'.eq = t.flags.eq ∧ exec i (s.setFlags f) = .next (t.setFlags f') :=
    ⟨f, by rw [hf, exec_flags_eq hcmp h], exec_setFlags_of_handler hi h⟩
  cases i with
  | cmp a b =>
    obtain hok | ⟨c, herr, rfl⟩ := exec_cases h
    · exact ⟨t.flags, rfl, exec_of_handler_ok hok⟩
    · exact ⟨f, hf, exec_of_handler_error herr⟩
  | jeq a =>
    refine kept (by simp) ?_
    rw [handler_jeq_of_eq hf, handler_jeq_of_eq rfl, jumpIf_setFlags]
  | jne a =>
    refine kept (by simp) ?_
    rw [handler_jne_of_eq hf, handler_jne_of_eq rfl, jumpIf_setFlags]
  | ldi | prn | hlt | add | mul | push | pop | call | ret | jmp =>
    exact kept (by simp) (handler_setFlags (by simp) (by simp) (by simp) s f)

/-- The same of a whole step. -/
theorem stepWith_setFlags_of_eq {opc : OpcodeMap} {s t : State} {f : Flags} (hf : f.eq = s.flags.eq)
    (h : stepWith opc s = .next t) :
    ∃ f', f'.eq = t.flags.eq ∧ stepWith opc (s.setFlags f) = .next (t.setFlags f') := by
  obtain ⟨hrun, ⟨c, hfetch, rfl⟩ | ⟨i, hfetch, -, hexec⟩⟩ := stepWith_cases h
  · exact ⟨f, hf, stepWith_of_fetch_error hrun hfetch⟩
  · obtain ⟨f', hf', hexec'⟩ := exec_setFlags_of_eq hf hexec
    exact ⟨f', hf', (stepWith_of_fetched (s := s.setFlags f) hrun hfetch).trans hexec'⟩

/-- States that agree but for Greater-Than and Less-Than differ by a change of the flags that keeps Equal. -/
theorem forgetGtLt_eq_iff {s s' : State} :
    s.forgetGtLt = s'.forgetGtLt ↔ s'.flags.eq = s.flags.eq ∧ s' = s.setFlags s'.flags := by
  obtain ⟨regs, pc, flags, run, mem, out⟩ := s
  obtain ⟨regs', pc', flags', run', mem', out'⟩ := s'
  simp only [State.forgetGtLt, State.setFlags, State.mk.injEq, Flags.mk.injEq]
  grind

/-- Settles O29: the second state is the first with other flags but the same Equal, so it takes the same step. -/
theorem greaterAndLessAreNeverRead : Obligations.GreaterAndLessAreNeverRead := by
  intro s s' t hss' hstep
  obtain ⟨hf, hs'⟩ := forgetGtLt_eq_iff.mp hss'
  obtain ⟨f', hf', hstep'⟩ := stepWith_setFlags_of_eq hf hstep
  exact ⟨t.setFlags f', hs' ▸ hstep', forgetGtLt_eq_iff.mpr ⟨hf', rfl⟩⟩

/-- A step leaves the flags alone or sets exactly one. -/
theorem stepWith_flags_cases {opc : OpcodeMap} {s t : State} (h : stepWith opc s = .next t) :
    t.flags = s.flags ∨ t.flags.oneSet := by
  obtain ⟨-, ⟨c, -, rfl⟩ | ⟨i, -, -, hexec⟩⟩ := stepWith_cases h
  · exact .inl rfl
  obtain hcomp | ⟨c, -, rfl⟩ := exec_completes_or_faults hexec
  · exact hcomp.flags_cases
  · exact .inl rfl

/-- Settles O32, by induction over the run: a step that writes the flags is CMP's, which sets exactly one. -/
theorem oneFlagStaysSet : Obligations.OneFlagStaysSet := by
  intro s t hs hsteps
  refine hsteps.induct (P := fun u => u.flags.oneSet) hs fun u v hu hstep => ?_
  obtain heq | hone := stepWith_flags_cases hstep
  · rw [heq]
    exact hu
  · exact hone

/-- Settles O33: Equal decides which of the two is the jump that is taken. -/
theorem exactlyOneOfJeqAndJneIsTaken : Obligations.ExactlyOneOfJeqAndJneIsTaken := by
  intro a s
  cases he : s.flags.eq with
  | true =>
    refine .inl ⟨?_, exec_of_jump_not_taken (handler_jne_of_eq he a), rfl⟩
    rw [exec_eq_handler, handler_jeq_of_eq he, exec_eq_handler, handler]
  | false =>
    refine .inr ⟨?_, exec_of_jump_not_taken (handler_jeq_of_eq he a), rfl⟩
    rw [exec_eq_handler, handler_jne_of_eq he, exec_eq_handler, handler, Bool.not_false]

end Sys2Proof.Machine
end


section
/-! Proofs about frames (spec/10_state.md, spec/20_memory.md section 4): what an instruction leaves unchanged, faults
included, and which steps write memory. -/

namespace Sys2Proof.Machine

/-! ### What an instruction that answers leaves alone -/

section Frame
variable {i : Instr} {s t : State} (h : exec i s = .next t)
include h

theorem exec_reg_eq {j : Fin 8} (hj : ¬ WritesReg i j) : t.reg j = s.reg j := by
  obtain hcomp | ⟨c, -, rfl⟩ := exec_completes_or_faults h
  · exact hcomp.reg_eq hj
  · rfl

theorem exec_mem_eq (hpush : ∀ a, i ≠ .push a) (hcall : ∀ a, i ≠ .call a) : t.mem = s.mem := by
  obtain hcomp | ⟨c, -, rfl⟩ := exec_completes_or_faults h
  · exact hcomp.mem_eq hpush hcall
  · rfl

theorem exec_byteAt_eq {x : Nat} (hx : x + 1 ≠ s.sp.toNat) : t.byteAt x = s.byteAt x := by
  obtain hcomp | ⟨c, -, rfl⟩ := exec_completes_or_faults h
  · exact hcomp.byteAt_eq hx
  · rfl

theorem exec_out_eq (hprn : ∀ a, i ≠ .prn a) : t.out = s.out := by
  obtain hcomp | ⟨c, -, rfl⟩ := exec_completes_or_faults h
  · exact hcomp.out_eq hprn
  · rfl

/-- The run state stays as it is, is Halted by HLT, or records a fault that leaves the rest of the state alone. -/
theorem exec_run_cases :
    t.run = s.run ∨ (i = .hlt ∧ t.run = .halted) ∨ ∃ c, t = { s with run := .faulted c } := by
  obtain hcomp | ⟨c, -, rfl⟩ := exec_completes_or_faults h
  · by_cases hhlt : i = .hlt
    · subst hhlt
      exact .inr (.inl ⟨rfl, hcomp.hlt_run⟩)
    · exact .inl (hcomp.run_eq hhlt)
  · exact .inr (.inr ⟨c, rfl⟩)

theorem exec_run_of_ne_hlt (hhlt : i ≠ .hlt) : t.run = s.run ∨ ∃ c, t = { s with run := .faulted c } :=
  (exec_run_cases h).imp_right (Or.resolve_left · fun hi => hhlt hi.1)

end Frame

theorem byteAt_eq_of_mem_eq {s t : State} (h : t.mem = s.mem) (x : Nat) : t.byteAt x = s.byteAt x :=
  congrArg (Memory.read · x) h

/-! ### The four classes of instructions -/

/-- Settles O34: each of the three writes its first operand's register alone. -/
theorem registerWritersFrame : Obligations.RegisterWritersFrame := by
  rintro a b i s t (rfl | rfl | rfl) h
  all_goals
    exact ⟨fun j hj => exec_reg_eq h hj, exec_flags_eq (by simp) h,
      byteAt_eq_of_mem_eq (exec_mem_eq h (by simp) (by simp)), exec_out_eq h (by simp), exec_run_of_ne_hlt h (by simp)⟩

/-- Settles O35: none of the six writes a register or stores. -/
theorem noRegisterNoMemoryFrame : Obligations.NoRegisterNoMemoryFrame := by
  intro i s t hi h
  have hreg (j : Fin 8) : ¬ WritesReg i j := by cases i <;> simp_all [WritesReg, mnemonicOf]
  have hpush (a : Byte) : i ≠ .push a := by rintro rfl; simp [mnemonicOf] at hi
  have hcall (a : Byte) : i ≠ .call a := by rintro rfl; simp [mnemonicOf] at hi
  refine ⟨fun j => exec_reg_eq h (hreg j), byteAt_eq_of_mem_eq (exec_mem_eq h hpush hcall), fun hcmp => ?flags,
    fun hprn => ?out, exec_run_cases h⟩
  case flags => exact exec_flags_eq (by rintro a b rfl; exact hcmp rfl) h
  case out => exact exec_out_eq h (by rintro a rfl; exact hprn rfl)

/-- The address a push stores to is one below x[7]. -/
theorem spDec_ok_sp {s d : State} (h : spDec s = .ok d) : d.sp.toNat + 1 = s.sp.toNat := by
  by_cases h0 : s.sp.toNat = 0
  · rw [spDec_error h0] at h; cases h
  · rw [spDec_ok h0] at h; cases h
    rw [State.setReg_sp, toNat_sub_one h0]
    omega

theorem spDec_error_sp {s : State} {c : FaultCause} (h : spDec s = .error c) : s.sp.toNat = 0 := by
  by_contra h0
  rw [spDec_ok h0] at h; cases h

/-- Settles O36: the cell a push stores to is the one below x[7], which is where `spDec` leaves it, and is none where
`spDec` faults. -/
theorem storingFrame : Obligations.StoringFrame := by
  rintro a i s t (rfl | rfl) h
  all_goals
    refine ⟨fun d hd x hx => exec_byteAt_eq h ?_, fun c hc x => exec_byteAt_eq h ?_, fun j hj => exec_reg_eq h hj,
      exec_flags_eq (by simp) h, exec_out_eq h (by simp), exec_run_of_ne_hlt h (by simp)⟩
    · have := spDec_ok_sp hd
      omega
    · have := spDec_error_sp hc
      omega

/-- Settles O37: neither stores, and POP writes its operand's register and x[7], RET x[7]. -/
theorem stackReadersFrame : Obligations.StackReadersFrame := by
  rintro a i s t (rfl | rfl) h
  · exact ⟨byteAt_eq_of_mem_eq (exec_mem_eq h (by simp) (by simp)),
      fun j hj hja => exec_reg_eq h (not_or.mpr ⟨hja rfl, hj⟩), exec_flags_eq (by simp) h, exec_out_eq h (by simp),
      exec_run_of_ne_hlt h (by simp)⟩
  · exact ⟨byteAt_eq_of_mem_eq (exec_mem_eq h (by simp) (by simp)), fun j hj _ => exec_reg_eq h hj,
      exec_flags_eq (by simp) h, exec_out_eq h (by simp), exec_run_of_ne_hlt h (by simp)⟩

/-! ### Which steps write memory -/

/-- Settles O38: a fault of the fetch changes no byte, an instruction none but the one below x[7], and an instruction that
is neither PUSH nor CALL none at all. -/
theorem onlyPushAndCallWriteMemory : Obligations.OnlyPushAndCallWriteMemory := by
  intro s t x hstep hx
  obtain ⟨-, ⟨c, -, rfl⟩ | ⟨i, hfetch, -, hexec⟩⟩ := stepWith_cases hstep
  · exact absurd rfl hx
  refine ⟨by_contra fun haddr => hx (exec_byteAt_eq hexec haddr), by_contra fun hi => hx ?_⟩
  have hpush (a : Byte) : i ≠ .push a := by rintro rfl; exact hi ⟨a, .inl hfetch⟩
  have hcall (a : Byte) : i ≠ .call a := by rintro rfl; exact hi ⟨a, .inr hfetch⟩
  exact byteAt_eq_of_mem_eq (exec_mem_eq hexec hpush hcall) x

end Sys2Proof.Machine
end

section
/-! Proofs about OUT (spec/10_state.md section 7): PRN appends its byte, nothing else appends anything, and no step depends
on what OUT holds. -/

namespace Sys2Proof.Machine

/-- The state with other bytes emitted. -/
def State.setOut (s : State) (o : List Byte) : State := { s with out := o }

section SetOut
variable (s : State) (o : List Byte)

theorem spDec_setOut : spDec (s.setOut o) = (spDec s).map (·.setOut o) := by
  by_cases h : s.sp.toNat = 0
  · rw [spDec_error h, spDec_error (s := s.setOut o) h]; rfl
  · rw [spDec_ok h, spDec_ok (s := s.setOut o) h]; rfl

theorem spInc_setOut : spInc (s.setOut o) = (spInc s).map (·.setOut o) := by
  by_cases h : s.sp.toNat = 255
  · rw [spInc_error h, spInc_error (s := s.setOut o) h]; rfl
  · rw [spInc_ok h, spInc_ok (s := s.setOut o) h]; rfl

theorem memWrite_setOut (a : Nat) (v : Byte) :
    memWrite a v (s.setOut o) = (memWrite a v s).map (·.setOut o) := by
  by_cases h : a < 256
  · rw [memWrite_ok h, memWrite_ok h]; rfl
  · rw [memWrite_error (by omega), memWrite_error (by omega)]; rfl

theorem handleAlu_setOut (op : AluOp) (a b : Byte) :
    handleAlu op a b (s.setOut o) = (handleAlu op a b s).map (·.setOut o) :=
  bind_map_of_same fun _ => bind_map_of_same fun _ => by cases op <;> rfl

theorem jumpIf_setOut (taken : Bool) (a : Byte) :
    jumpIf taken a (s.setOut o) = (jumpIf taken a s).map (·.setOut o) := by
  cases taken with
  | true => exact bind_map_of_same fun _ => rfl
  | false => rfl

/-- Every handler but PRN's does the same whatever OUT holds, and leaves it there. -/
theorem handler_setOut {i : Instr} (hprn : ∀ a, i ≠ .prn a) :
    handler i (s.setOut o) = (handler i s).map (·.setOut o) := by
  cases i with
  | ldi a imm => exact bind_map_of_same fun _ => rfl
  | prn a => exact absurd rfl (hprn a)
  | hlt => rfl
  | add a b => exact handleAlu_setOut s o .add a b
  | mul a b => exact handleAlu_setOut s o .mul a b
  | cmp a b => exact handleAlu_setOut s o .cmp a b
  | push a =>
    exact bind_map_of_map (spDec_setOut s o) fun t => bind_map_of_same fun i =>
      bind_map_of_map (memWrite_setOut t o t.sp.toNat (t.reg i)) fun _ => rfl
  | pop a =>
    exact bind_map_of_same fun d => bind_map_of_same fun v =>
      bind_map_of_map (spInc_setOut (s.setReg d v) o) fun _ => rfl
  | call a =>
    exact bind_map_of_map (spDec_setOut s o) fun t =>
      bind_map_of_map (memWrite_setOut t o t.sp.toNat (returnAddress s.pc)) fun _ =>
        bind_map_of_same fun _ => bind_map_of_same fun _ => rfl
  | ret => exact bind_map_of_same fun _ => bind_map_of_map (spInc_setOut s o) fun _ => rfl
  | jmp a => exact jumpIf_setOut s o true a
  | jeq a => exact jumpIf_setOut s o s.flags.eq a
  | jne a => exact jumpIf_setOut s o (!s.flags.eq) a

end SetOut

/-- An instruction other than PRN does the same whatever OUT holds, and leaves it there. -/
theorem exec_setOut {i : Instr} {s t : State} (hprn : ∀ a, i ≠ .prn a) (h : exec i s = .next t) (o : List Byte) :
    exec i (s.setOut o) = .next (t.setOut o) := by
  rw [exec_eq_handler, handler_setOut s o hprn]
  obtain hok | ⟨c, herr, rfl⟩ := exec_cases h
  · rw [hok]; rfl
  · rw [herr]; rfl

/-! ### What a step emits -/

/-- A step that emits the bytes `e` from `s`, and would emit the same whatever OUT held. -/
def Emits (step : State → Result) (s t : State) (e : List Byte) : Prop :=
  t.out = s.out ++ e ∧ ∀ o, step (s.setOut o) = .next (t.setOut (o ++ e))

theorem emits_nil_iff {step : State → Result} {s t : State} :
    Emits step s t [] ↔ t.out = s.out ∧ ∀ o, step (s.setOut o) = .next (t.setOut o) := by
  simp [Emits]

/-- An instruction emits nothing or, being PRN with its operand in range, its register's byte. -/
theorem exec_emits {i : Instr} {s t : State} (h : exec i s = .next t) :
    Emits (exec i) s t [] ∨
      ∃ (a : Byte) (ha : a.toNat < 8), i = .prn a ∧ Emits (exec i) s t [s.reg ⟨a.toNat, ha⟩] := by
  by_cases hprn : ∃ a, i = .prn a
  · obtain ⟨a, rfl⟩ := hprn
    by_cases ha : a.toNat < 8
    · cases (exec_prn_ok ha).symm.trans h
      exact .inr ⟨a, ha, rfl, rfl, fun o => exec_prn_ok ha⟩
    · have hfault (u : State) := exec_of_handler_error (i := .prn a) (s := u) (handlePrn_error (Nat.not_lt.mp ha))
      cases (hfault s).symm.trans h
      exact .inl (emits_nil_iff.mpr ⟨rfl, fun o => hfault (s.setOut o)⟩)
  · have hprn := not_exists.mp hprn
    exact .inl (emits_nil_iff.mpr ⟨exec_out_eq h hprn, exec_setOut hprn h⟩)

/-- A step emits what the instruction it runs does. -/
theorem Emits.stepWith_of_fetched {opc : OpcodeMap} {i : Instr} {s t : State} {e : List Byte} (hrun : s.run = .running)
    (hfetch : fetchInstrWith opc s = .ok i) (h : Emits (exec i) s t e) : Emits (stepWith opc) s t e :=
  ⟨h.1, fun o => (Machine.stepWith_of_fetched (s := s.setOut o) hrun hfetch).trans (h.2 o)⟩

theorem stepWith_emits {opc : OpcodeMap} {s t : State} (h : stepWith opc s = .next t) :
    Emits (stepWith opc) s t [] ∨ ∃ (a : Byte) (ha : a.toNat < 8),
      fetchInstrWith opc s = .ok (.prn a) ∧ Emits (stepWith opc) s t [s.reg ⟨a.toNat, ha⟩] := by
  obtain ⟨hrun, ⟨c, hfetch, rfl⟩ | ⟨i, hfetch, -, hexec⟩⟩ := stepWith_cases h
  · exact .inl (emits_nil_iff.mpr ⟨rfl, fun o => stepWith_of_fetch_error (s := s.setOut o) hrun hfetch⟩)
  obtain hnone | ⟨a, ha, rfl, hbyte⟩ := exec_emits hexec
  · exact .inl (hnone.stepWith_of_fetched hrun hfetch)
  · exact .inr ⟨a, ha, hfetch, hbyte.stepWith_of_fetched hrun hfetch⟩

/-- Settles O30: `stepWith_emits` under the default map. -/
theorem outIsWriteOnly : Obligations.OutIsWriteOnly := by
  intro s t hstep
  obtain ⟨hout, hsame⟩ | ⟨a, ha, hfetch, hout, hsame⟩ := stepWith_emits hstep
  · exact ⟨[], hout, .inl rfl, hsame⟩
  · exact ⟨_, hout, .inr ⟨a, ha, hfetch, rfl⟩, hsame⟩

/-- Settles O31, by induction over the run: each step appends. -/
theorem outGrowsAlongEveryRun : Obligations.OutGrowsAlongEveryRun := by
  intro s t hsteps
  refine hsteps.induct (P := fun u => s.out <+: u.out) ⟨[], List.append_nil _⟩ fun u v hu hstep => ?_
  obtain ⟨e, hout, -⟩ := outIsWriteOnly u v hstep
  exact hu.trans ⟨e, hout.symm⟩

end Sys2Proof.Machine
end

section
/-! Proofs about faults (spec/60_exceptions.md, spec/70_reset_and_hazards.md section 4): when an instruction faults, which
faults no step and no well-formed instruction raises, and the bounds of memory and of the stack pointer. -/

namespace Sys2Proof.Machine

/-! ### Faults of the shared operations -/

/-- Settles O41, by the bound check of the two accesses. -/
theorem accessOutsideMemoryFaults : Obligations.AccessOutsideMemoryFaults :=
  fun _ _ _ ha => ⟨memRead_error ha, memWrite_error ha⟩

theorem spDec_of_eq_zero {s : State} (h : s.sp.toNat = 0) : spDec s = .error (.stackPointerRange 0#8 .down) := by
  have hsp : s.sp = 0#8 := BitVec.eq_of_toNat_eq h
  rw [spDec_error h, hsp]

theorem spInc_of_eq_255 {s : State} (h : s.sp.toNat = 255) : spInc s = .error (.stackPointerRange 255#8 .up) := by
  have hsp : s.sp = 255#8 := BitVec.eq_of_toNat_eq h
  rw [spInc_error h, hsp]

/-- Settles O42: inside its bounds each step is one write to x[7], by one less or one more. -/
theorem stackPointerStepsNeverWrap : Obligations.StackPointerStepsNeverWrap := by
  refine fun s => ⟨spDec_of_eq_zero, fun h0 => ⟨_, spDec_ok h0, ?down, fun j hj => State.setReg_reg_other s _ _ _ hj, rfl⟩,
    spInc_of_eq_255, fun h255 => ⟨_, spInc_ok h255, ?up, fun j hj => State.setReg_reg_other s _ _ _ hj, rfl⟩⟩
  case down =>
    rw [State.setReg_sp, toNat_sub_one h0]
    omega
  case up => rw [State.setReg_sp, toNat_add_one h255]

/-! ### When an instruction completes -/

/-- A write to register 7 is a write to the stack pointer, and a write to any other leaves it alone. -/
theorem sp_setReg (s : State) {n : Nat} (hn : n < 8) (v : Byte) :
    (s.setReg ⟨n, hn⟩ v).sp = if n = 7 then v else s.sp := by
  split
  next h7 => subst h7; exact State.setReg_sp s v
  next h7 => exact State.setReg_reg_of_val_ne (j := spIndex) (Ne.symm h7)

theorem handlePop_ok {a : Byte} {s : State} (ha : a.toNat < 8)
    (hsp : (s.setReg ⟨a.toNat, ha⟩ (s.byteAt s.sp.toNat)).sp.toNat ≠ 255) :
    handlePop a s = .ok (((s.setReg ⟨a.toNat, ha⟩ (s.byteAt s.sp.toNat)).setReg spIndex
      ((s.setReg ⟨a.toNat, ha⟩ (s.byteAt s.sp.toNat)).sp + 1#8)).advance 2) := by
  rw [handlePop_eq ha, spInc_ok hsp, ok_bind]

theorem handlePop_error_sp {a : Byte} {s : State} (ha : a.toNat < 8)
    (hsp : (s.setReg ⟨a.toNat, ha⟩ (s.byteAt s.sp.toNat)).sp.toNat = 255) :
    handlePop a s = .error (.stackPointerRange 255#8 .up) := by
  rw [handlePop_eq ha, spInc_of_eq_255 hsp, error_bind]

theorem handleCall_ok {s : State} (hpc : s.pc ≤ 253) (h0 : s.sp.toNat ≠ 0) (hr : (callIndex s).toNat < 8) :
    handleCall s = .ok ((s.pushed (returnAddress s.pc)).setPc
      ((s.pushed (returnAddress s.pc)).reg ⟨(callIndex s).toNat, hr⟩).toNat) := by
  rw [handleCall_eq hpc h0, pushed_returnAddress_byteAt, jumpTarget_ok hr, ok_bind]

theorem handleCall_error_index {s : State} (hpc : s.pc ≤ 253) (h0 : s.sp.toNat ≠ 0) (hr : 8 ≤ (callIndex s).toNat) :
    handleCall s = .error (.registerIndex (callIndex s)) := by
  rw [handleCall_eq hpc h0, pushed_returnAddress_byteAt, jumpTarget_error hr, error_bind]

/-- POP's condition in terms of the stack pointer its increment meets. -/
theorem clean_pop_iff {a : Byte} {s : State} : Clean s (.pop a) ↔
    ∃ ha : a.toNat < 8, (s.setReg ⟨a.toNat, ha⟩ (s.byteAt s.sp.toNat)).sp.toNat ≠ 255 := by
  simp only [Clean, sp_setReg]
  by_cases h7 : a.toNat = 7
  · simp [h7]
  · simp only [h7, if_false, false_and, or_false, exists_prop]
    exact and_congr_left fun _ => by omega

/-- What completes was clean. -/
theorem Completes.clean {s t : State} {i : Instr} (h : Completes s t i) : Clean s i := by
  cases i with
  | ldi | prn | ret | jmp => obtain ⟨hclean, -⟩ := h; exact hclean
  | hlt => trivial
  | add | mul | cmp => obtain ⟨ha, hb, -⟩ := h; exact ⟨ha, hb⟩
  | push => obtain ⟨hsp, ha, -⟩ := h; exact ⟨hsp, ha⟩
  | pop => obtain ⟨ha, hsp, -⟩ := h; exact clean_pop_iff.mpr ⟨ha, hsp⟩
  | call => obtain ⟨hsp, -, hidx, -⟩ := h; exact ⟨hsp, pushed_returnAddress_byteAt s ▸ hidx⟩
  | jeq | jne =>
    obtain ⟨-, ha, -⟩ | ⟨he, -⟩ := h
    · exact fun _ => ha
    · simp [Clean, he]

/-- A jump that is taken only with its operand in range completes. -/
theorem jumpIf_ok_of {a : Byte} {taken : Bool} {s : State} (h : taken = true → a.toNat < 8) :
    ∃ t, jumpIf taken a s = .ok t := by
  cases taken with
  | true => exact ⟨_, jumpIf_taken (h rfl)⟩
  | false => exact ⟨_, jumpIf_not_taken a s⟩

/-- What is clean completes. -/
theorem handler_ok_of_clean {i : Instr} {s : State} (hpc : s.pc ≤ 253) (h : Clean s i) : ∃ t, handler i s = .ok t := by
  cases i with
  | ldi a imm => exact ⟨_, handleLdi_ok h⟩
  | prn a => exact ⟨_, handlePrn_ok h⟩
  | hlt => exact ⟨_, rfl⟩
  | add | mul | cmp => obtain ⟨ha, hb⟩ := h; exact ⟨_, handleAlu_ok ha hb⟩
  | push a => obtain ⟨hsp, ha⟩ := h; exact ⟨_, handlePush_ok hsp ha⟩
  | pop a => obtain ⟨ha, hsp⟩ := clean_pop_iff.mp h; exact ⟨_, handlePop_ok ha hsp⟩
  | call a => obtain ⟨hsp, hidx⟩ := h; exact ⟨_, handleCall_ok hpc hsp hidx⟩
  | ret => exact ⟨_, handleRet_ok h⟩
  | jmp a => exact jumpIf_ok_of (taken := true) fun _ => h
  | jeq a => exact jumpIf_ok_of h
  | jne a => exact jumpIf_ok_of fun he => h (by simpa using he)

/-- Settles O10: what completes was clean, and what is clean completes. -/
theorem faultsExactlyWhenNotClean : Obligations.FaultsExactlyWhenNotClean := by
  intro i s hrun hpc
  constructor
  · rintro ⟨t, hexec, hf⟩
    exact (completes_of_not_faulted hexec hf).clean
  · intro hclean
    obtain ⟨t, hok⟩ := handler_ok_of_clean hpc hclean
    exact ⟨t, exec_of_handler_ok hok, (handler_completes hok).not_faulted hrun⟩

/-! ### Faults that are not raised -/

/-- The fault an instruction records is one its handler raised. -/
theorem exec_faulted_raised {i : Instr} {s t : State} {c : FaultCause} (hrun : s.run = .running)
    (hexec : exec i s = .next t) (hc : t.run = .faulted c) : Raised s i c := by
  obtain hcomp | ⟨c', herr, rfl⟩ := exec_completes_or_faults hexec
  · exact absurd hc (hcomp.not_faulted hrun c)
  · cases hc
    exact handler_raised herr

/-- Settles O11: neither a fetch nor a handler raises the ALU selector fault. -/
theorem aluSelectorFaultNeverRaised : Obligations.AluSelectorFaultNeverRaised := by
  intro opc s t hstep hc
  obtain ⟨hrun, ⟨c, hfetch, rfl⟩ | ⟨i, -, -, hexec⟩⟩ := stepWith_cases hstep
  · cases hc
    obtain ⟨-, h⟩ | ⟨-, -, h⟩ := fetchInstrWith_error_cases hfetch <;> cases h
  · cases exec_faulted_raised hrun hexec hc

/-- An instruction all of whose index bytes are in range records no register index fault. -/
theorem exec_run_ne_registerIndex {i : Instr} {s t : State} (hrun : s.run = .running)
    (hidx : ∀ b ∈ indexBytes s i, b.toNat < 8) (hexec : exec i s = .next t) (b : Byte) :
    t.run ≠ .faulted (.registerIndex b) := by
  intro hc
  cases exec_faulted_raised hrun hexec hc with
  | registerIndex hb h8 => exact absurd (hidx b hb) (by omega)

theorem isRegByte_iff {b : Byte} : isRegByte b = true ↔ b.toNat < 8 := decide_eq_true_iff

/-- The index bytes of a well-formed instruction are in range; CALL's is read again, and left out. -/
theorem indexBytes_lt_of_wf {i : Instr} {s : State} (hwf : i.wf = true) (hcall : ∀ a, i ≠ .call a) :
    ∀ b ∈ indexBytes s i, b.toNat < 8 := by
  cases i with
  | call a => exact absurd rfl (hcall a)
  | hlt | ret => exact fun b hb => absurd hb List.not_mem_nil
  | ldi | prn | push | pop | jmp | jeq | jne | add | mul | cmp => simpa [indexBytes, Instr.wf, isRegByte_iff] using hwf

/-- The push misses CALL's operand byte exactly when x[7] is not the return address. -/
theorem callIndex_eq (s : State) :
    callIndex s = if s.sp.toNat = s.pc + 2 then returnAddress s.pc else s.byteAt (s.pc + 1) := by
  have haddr : s.sp.toNat - 1 = s.pc + 1 ↔ s.sp.toNat = s.pc + 2 := by omega
  simp only [callIndex, haddr]

/-- Settles O12: a register index fault names an index byte above 7, and a well-formed instruction has none; CALL's is its
operand byte when the push misses it. -/
theorem wellFormedNeverFaultsOnIndex : Obligations.WellFormedNeverFaultsOnIndex := by
  refine ⟨fun i s t hwf hcall hrun hexec => exec_run_ne_registerIndex hrun (indexBytes_lt_of_wf hwf hcall) hexec,
    fun a s t hwf hrun _ ha hsp hexec => exec_run_ne_registerIndex hrun ?_ hexec⟩
  have hidx : callIndex s = a := by rw [callIndex_eq, if_neg hsp, ha]
  simpa [indexBytes, hidx] using isRegByte_iff.mp hwf

end Sys2Proof.Machine
end

section
/-! Proofs about the step (spec/40_engine_cycle.md): which instruction it runs, the fetch past the top of memory, the
machine that has stopped, and the jump to itself. -/

namespace Sys2Proof.Machine

/-- Settles O5: the fetch succeeds and decodes to the instruction, which the step runs. -/
theorem stepRunsTheDecodedInstruction : Obligations.StepRunsTheDecodedInstruction := by
  refine ⟨fun opc s i hrun hpc hdec => stepWith_of_fetched hrun ?_, fun s => rfl⟩
  simp only [fetchInstrWith_of_le hpc, hdec]

/-- Settles O7: the fetch meets address 256 before any byte is decoded. -/
theorem fetchPastTheTopFaults : Obligations.FetchPastTheTopFaults :=
  fun _ _ hrun hlo hhi => stepWith_of_fetch_past_top hrun hlo hhi

/-- A state no step leaves is the only one its runs reach. -/
theorem Steps.eq_of_step_eq {s t : State} (hsteps : Steps s t) (h : ∀ u, step s = .next u → u = s) : t = s :=
  hsteps.induct (P := (· = s)) rfl fun _ v hu hstep => h v (hu ▸ hstep)

/-- Settles O8: the step's own match on the run state, and, for a run, that a step starts from a Running state. -/
theorem stoppedMachineHasNoStep : Obligations.StoppedMachineHasNoStep := by
  refine ⟨fun s hrun => ?_, fun s c hrun => ?_, fun s t hrun hsteps => hsteps.eq_of_step_eq fun u hstep => ?_⟩
  · simp only [step, stepWith, hrun]
  · simp only [step, stepWith, hrun]
  · obtain ⟨hrunning, -⟩ := stepWith_cases hstep
    exact absurd hrunning hrun

/-- Settles O48: the jump sets pc to what it was, so the step is the state itself, and so is every state of a run. -/
theorem jumpToSelfRunsForever : Obligations.JumpToSelfRunsForever := by
  intro a s ha hrun hfetch hself
  have hstep : step s = .next s := calc
    step s = exec (.jmp a) s := stepWith_of_fetched hrun hfetch
    _ = .next (s.setPc s.pc) := by rw [exec_of_jump_taken rfl ha, hself]
    _ = .next s := rfl
  have hstay (t : State) (hsteps : Steps s t) : t = s := hsteps.eq_of_step_eq fun u hu => by
    rw [hstep] at hu
    cases hu
    rfl
  refine ⟨hstep, hstay, fun t hsteps c => ?_⟩
  rw [hstay t hsteps, hrun]
  exact RunState.noConfusion

end Sys2Proof.Machine
end

section
/-! Proofs about the stack (spec/43_stack.md, spec/44_call_return.md): PUSH, POP and CALL, the round trips, and the bytes a
push leaves for the next fetch. -/

namespace Sys2Proof.Machine

/-! ### The state after a push -/

section Pushed
variable {s : State} {v : Byte}

theorem State.pushed_sp_toNat (h0 : s.sp.toNat ≠ 0) : (s.pushed v).sp.toNat = s.sp.toNat - 1 := by
  rw [State.pushed_sp, toNat_sub_one h0]

theorem State.pushed_byteAt_top : (s.pushed v).byteAt (s.sp.toNat - 1) = v := by
  rw [State.pushed_byteAt, if_pos rfl]

theorem State.pushed_byteAt_other {x : Nat} (hx : x ≠ s.sp.toNat - 1) : (s.pushed v).byteAt x = s.byteAt x := by
  rw [State.pushed_byteAt, if_neg hx]

end Pushed

/-! ### PUSH, POP and CALL -/

/-- Settles O19: PUSH completes in the push of its register, as it is after the decrement, and meets the stack pointer
before its operand. -/
theorem pushStoresBelowTheStackPointer : Obligations.PushStoresBelowTheStackPointer := by
  refine fun a s => ⟨fun opc => rfl, fun ha h0 => ⟨_, exec_of_handler_ok (handlePush_ok h0 ha), ?sp,
    fun j hj => State.setReg_reg_other s _ _ _ hj, State.pushed_byteAt_top, fun x hx => State.pushed_byteAt_other hx,
    rfl, rfl, rfl, rfl⟩, fun h0 => ?fault, fun h0 ha => exec_of_handler_error (handlePush_error_index h0 ha)⟩
  case sp => rw [State.advance_sp, State.pushed_sp_toNat h0]
  case fault =>
    have hsp : s.sp = 0#8 := BitVec.eq_of_toNat_eq h0
    rw [exec_of_handler_error (i := .push a) (handlePush_error_sp h0), hsp, takeFault_eq]

/-- Settles O20: POP completes in two register writes, the second of which, to x[7], sees the first; for POP R7 they meet
in the same register. -/
theorem popLoadsFromTheStackPointer : Obligations.PopLoadsFromTheStackPointer := by
  intro a s
  -- what the increment finds in x[7] after the load
  have sp_low (ha : a.toNat < 7) : (s.setReg ⟨a.toNat, by omega⟩ (s.byteAt s.sp.toNat)).sp = s.sp := by
    rw [sp_setReg, if_neg (by omega)]
  have sp_seven (h7 : a.toNat = 7) :
      (s.setReg ⟨a.toNat, by omega⟩ (s.byteAt s.sp.toNat)).sp = s.byteAt s.sp.toNat := by
    rw [sp_setReg, if_pos h7]
  refine ⟨fun opc => rfl, fun ha hsp => ⟨_, exec_of_handler_ok (handlePop_ok (by omega) (by rwa [sp_low ha])),
      ?loaded, ?sp, ?others, rfl, rfl, rfl, rfl, rfl⟩,
    fun h7 hv => ⟨_, exec_of_handler_ok (handlePop_ok (by omega) (by rwa [sp_seven h7])),
      ?sp7, ?others7, rfl, rfl, rfl, rfl, rfl⟩,
    fun ha => exec_of_handler_error (handlePop_error_index ha),
    fun ha hsp => exec_of_handler_error (handlePop_error_sp (by omega) (by rwa [sp_low ha])),
    fun h7 hv => exec_of_handler_error (handlePop_error_sp (by omega) (by rwa [sp_seven h7]))⟩
  case loaded =>
    rw [State.advance_reg, State.setReg_reg_other _ _ _ _ (Fin.ne_of_val_ne ha.ne), State.setReg_reg_same]
  case sp => rw [State.advance_sp, State.setReg_sp, sp_low ha, toNat_add_one hsp]
  case others =>
    intro j hja hj7
    rw [State.advance_reg, State.setReg_reg_other _ _ _ _ hj7, State.setReg_reg_of_val_ne hja]
  case sp7 => rw [State.advance_sp, State.setReg_sp, sp_seven h7, toNat_add_one hv]
  case others7 =>
    intro j hj7
    have hja : j.val ≠ a.toNat := h7 ▸ Fin.val_ne_of_ne hj7
    rw [State.advance_reg, State.setReg_reg_other _ _ _ _ hj7, State.setReg_reg_of_val_ne hja]

/-- Settles O21: the byte CALL reads back is `callIndex`, and CALL completes in the push of the return address with pc at
that register, as it is after the decrement. -/
theorem callPushesAndJumps : Obligations.CallPushesAndJumps := by
  intro a s hpc
  refine ⟨fun opc => rfl, fun r hover hmiss h0 => ?pushed, fun h0 => ?fault⟩
  case pushed =>
    have hr : callIndex s = r := by
      rw [callIndex_eq]
      split
      next hsp => exact (hover hsp).symm
      next hsp => exact (hmiss hsp).symm
    subst hr
    refine ⟨fun hidx => ⟨_, exec_of_handler_ok (handleCall_ok hpc h0 hidx), ?sp,
      fun j hj => State.setReg_reg_other s _ _ _ hj, ?cell, fun x hx => State.pushed_byteAt_other hx,
      rfl, rfl, rfl, rfl⟩, fun hidx => exec_of_handler_error (handleCall_error_index hpc h0 hidx)⟩
    case sp => rw [State.setPc_sp, State.pushed_sp_toNat h0]
    case cell => rw [State.setPc_byteAt, State.pushed_byteAt_top, toNat_returnAddress hpc]
  case fault =>
    have hsp : s.sp = 0#8 := BitVec.eq_of_toNat_eq h0
    rw [exec_of_handler_error (i := .call a) (handleCall_error_sp h0), hsp, takeFault_eq]

/-- Settles O44: CALL's index byte is the return address, below 7, equal to 7 (the decremented stack pointer), or above. -/
theorem callThatOverwritesItsOperand : Obligations.CallThatOverwritesItsOperand := by
  intro a s hpc hsp
  have hr : (BitVec.ofNat 8 (s.pc + 2)).toNat = s.pc + 2 := toNat_returnAddress hpc
  obtain ⟨-, hcall, -⟩ := callPushesAndJumps a s hpc
  obtain ⟨hok, herr⟩ := hcall (BitVec.ofNat 8 (s.pc + 2)) (fun _ => rfl) (fun hne => absurd hsp hne) (by omega)
  refine ⟨fun hlow => ?_, fun h5 => ?_, fun hhigh => herr (by omega)⟩
  · obtain ⟨t, hexec, -, hregs, -, -, htarget, -, hrun, -⟩ := hok (by omega)
    refine ⟨t, hexec, hrun, ?_⟩
    simp only [hr] at htarget
    rw [htarget, hregs _ (Fin.ne_of_val_ne (by dsimp only; omega))]
  · obtain ⟨t, hexec, hsp', -, -, -, htarget, -, hrun, -⟩ := hok (by omega)
    refine ⟨t, hexec, hrun, ?_⟩
    simp only [h5] at htarget
    calc t.pc = t.sp.toNat := htarget
      _ = 6 := by omega

/-! ### What the next fetch sees -/

/-- A completed PUSH leaves its register's byte in the cell x[7] then names. -/
theorem Completes.push_byteAt_sp {a : Byte} {s t : State} (h : Completes s t (.push a)) (ha : a.toNat < 8) :
    t.byteAt t.sp.toNat = t.reg ⟨a.toNat, ha⟩ := by
  obtain ⟨h0, -, rfl⟩ := h
  rw [State.advance_byteAt, State.advance_sp, State.pushed_sp_toNat h0, State.pushed_byteAt_top]
  rfl

/-- Settles O43: the fetch reads the cells at pc, pc + 1 and pc + 2, one of which may be the pushed one. -/
theorem nextFetchSeesThePushedByte : Obligations.NextFetchSeesThePushedByte := by
  intro opc a s t hrun hfetch hstep htrun hpc ha
  rw [stepWith_of_fetched hrun hfetch] at hstep
  have hcell := (completes_of_not_faulted hstep (by simp [htrun])).push_byteAt_sp ha
  exact ⟨_, fetch_ok hpc, fun hx => hx ▸ hcell, fun hx => hx ▸ hcell, fun hx => hx ▸ hcell⟩

/-! ### Round trips -/

/-- Settles O45: the pop loads the byte the push left in the cell x[7] names, and the two steps of x[7] cancel. -/
theorem pushThenPopRoundTrip : Obligations.PushThenPopRoundTrip := by
  intro r r' s hr hr' h0
  have hbound := s.sp.isLt
  obtain ⟨-, hpush, -⟩ := pushStoresBelowTheStackPointer r s
  obtain ⟨t, hexec, htsp, htregs, htop, -, htpc, -, htrun, -⟩ := hpush (by omega) h0
  obtain ⟨-, hpop, -⟩ := popLoadsFromTheStackPointer r' t
  obtain ⟨u, hexec', hloaded, husp, huregs, hupc, -, hurun, -⟩ := hpop hr' (by omega)
  have hsp : u.sp = s.sp := BitVec.eq_of_toNat_eq (by omega)
  refine ⟨t, u, hexec, hexec', ?_, hsp, hurun.trans htrun, by omega, fun j hj => ?_⟩
  · rw [hloaded, htsp, htop, htregs _ (Fin.ne_of_val_ne hr.ne)]
  · by_cases h7 : j = 7
    · subst h7
      exact hsp
    · rw [huregs j hj h7, htregs j h7]

theorem execAll_cons_next {i : Instr} {is : List Instr} {s t : State} (h : exec i s = .next t) :
    execAll (i :: is) s = execAll is t := by
  rw [execAll, h]

theorem execAll_append_next {is js : List Instr} {s t : State} (h : execAll is s = .next t) :
    execAll (is ++ js) s = execAll js t := by
  induction is generalizing s with
  | nil => cases h; rfl
  | cons i is ih =>
    cases hexec : exec i s with
    | next u =>
      rw [execAll_cons_next hexec] at h
      rw [List.cons_append, execAll_cons_next hexec, ih h]
    | fault c => simp [execAll, hexec] at h
    | refused c => simp [execAll, hexec] at h

/-- Pushing `r :: rs` and popping it in reverse is PUSH r, the same of `rs`, and POP r. -/
theorem pushPops_cons (r : Byte) (rs : List Byte) :
    (r :: rs).map Instr.push ++ (r :: rs).reverse.map Instr.pop =
      .push r :: ((rs.map .push ++ rs.reverse.map .pop) ++ [.pop r]) := by
  simp

/-- POP of the pushed register undoes a PUSH, from any state with the registers and the pushed byte that PUSH left. -/
theorem exec_pop_restores {r : Byte} {s t u : State} (hr : r.toNat < 7) (h0 : s.sp.toNat ≠ 0)
    (hpush : exec (.push r) s = .next t) (hregs : u.regs = t.regs)
    (hcell : u.byteAt (s.sp.toNat - 1) = t.byteAt (s.sp.toNat - 1)) :
    ∃ v, exec (.pop r) u = .next v ∧ v.regs = s.regs ∧ v.pc = u.pc + 2 ∧ v.flags = u.flags ∧ v.run = u.run ∧
      v.mem = u.mem ∧ v.out = u.out := by
  have hbound := s.sp.isLt
  obtain ⟨-, hpushed, -⟩ := pushStoresBelowTheStackPointer r s
  obtain ⟨t', hexec, htsp, htregs, htop, -⟩ := hpushed (by omega) h0
  cases hexec.symm.trans hpush
  have hureg (j : Fin 8) : u.reg j = t.reg j := congrArg (RegFile.get · j) hregs
  have husp : u.sp.toNat = s.sp.toNat - 1 := (congrArg BitVec.toNat (hureg spIndex)).trans htsp
  obtain ⟨-, hpop, -⟩ := popLoadsFromTheStackPointer r u
  obtain ⟨v, hexec', hloaded, hvsp, hvregs, hframe⟩ := hpop hr (by omega)
  refine ⟨v, hexec', RegFile.ext_get fun j => ?_, hframe⟩
  by_cases h7 : j = 7
  · subst h7
    exact BitVec.eq_of_toNat_eq (show v.sp.toNat = s.sp.toNat by omega)
  by_cases hjr : j.val = r.toNat
  · have hj : j = ⟨r.toNat, Nat.lt_succ_of_lt hr⟩ := Fin.ext hjr
    subst hj
    calc v.reg _ = u.byteAt u.sp.toNat := hloaded
      _ = t.reg _ := by rw [husp, hcell, htop]
      _ = s.reg _ := htregs _ h7
  · calc v.reg j = u.reg j := hvregs j hjr h7
      _ = s.reg j := (hureg j).trans (htregs j h7)

/-- Settles O46, by induction over the list: the inner pushes and pops leave the cell of the outer push alone, since it
lies at the stack pointer they start from. -/
theorem nestedPushPopRoundTrip : Obligations.NestedPushPopRoundTrip := by
  intro rs
  induction rs with
  | nil =>
    intro s _ _
    exact ⟨s, rfl, rfl, rfl, rfl, rfl, rfl, fun _ _ => rfl⟩
  | cons r rs ih =>
    intro s hrs hlen
    obtain ⟨hr, hrs⟩ := List.forall_mem_cons.mp hrs
    rw [List.length_cons] at hlen ⊢
    obtain ⟨-, hpush, -⟩ := pushStoresBelowTheStackPointer r s
    obtain ⟨t, hexec, htsp, -, -, htmem, htpc, htflags, htrun, htout⟩ := hpush (by omega) (by omega)
    obtain ⟨u, hall, huregs, huflags, hurun, huout, hupc, humem⟩ := ih t hrs (by omega)
    obtain ⟨v, hexec', hvregs, hvpc, hvflags, hvrun, hvmem, hvout⟩ :=
      exec_pop_restores hr (by omega) hexec huregs (humem _ (by omega))
    refine ⟨v, ?run, hvregs, by rw [hvflags, huflags, htflags], by rw [hvrun, hurun, htrun],
      by rw [hvout, huout, htout], by omega, fun x hx => ?mem⟩
    case run => rw [pushPops_cons, execAll_cons_next hexec, execAll_append_next hall, execAll_cons_next hexec', execAll]
    case mem => rw [byteAt_eq_of_mem_eq hvmem, humem x (by omega), htmem x (by omega)]

/-- Settles O47: CALL completes in the push of pc + 2, one below x[7], where RET finds it. -/
theorem callThenRetRoundTrip : Obligations.CallThenRetRoundTrip := by
  intro a s t u hpc _ hexec htrun husp hutop
  obtain ⟨h0, -, hidx, rfl⟩ := completes_of_not_faulted hexec (by simp [htrun])
  have hbound := s.sp.isLt
  rw [State.setPc_sp] at husp hutop
  rw [State.setPc_byteAt, State.pushed_sp_toNat h0, State.pushed_byteAt_top] at hutop
  have hsp : u.sp.toNat = s.sp.toNat - 1 := by rw [husp, State.pushed_sp_toNat h0]
  obtain ⟨-, hret, -⟩ := retPopsIntoPc u
  specialize hret (by omega)
  obtain ⟨v, hexec', hvpc, hvsp, -, -, hvrun, -⟩ := hret
  refine ⟨v, hexec', ?_, BitVec.eq_of_toNat_eq (by omega), hvrun⟩
  rw [hvpc, hsp, hutop, toNat_returnAddress hpc]

end Sys2Proof.Machine
end
